-- ==== Sys2Proof/Word.lean ====
section
/-! DEFINITION. The words, integers and register numbers of ED25519-AU (spec/00_scope.md R7, R10; 10_state.md). -/

namespace Sys2Proof

/-- A register word of the window and a command word: 32 bits (R7, R53). -/
abbrev Word := BitVec 32

/-- The value of a scalar register and of DBUF: b = 256 bits (R7, R26, R27). -/
abbrev Wide := BitVec 256

/-- The field prime q = 2^255 - 19 (R1, R7). -/
def q : Nat := 2 ^ 255 - 19

theorem q_pos : 0 < q := by decide

/-- A canonical field element: an integer v with 0 <= v < q (R21). The bound of R21 is the type's own. -/
abbrev Fe := Fin q

/-- The value of an S register: any 256-bit unsigned integer, never reduced (R26). -/
abbrev Scalar := Wide

/-- The value of a P register: an affine pair of canonical coordinates (R16, R23, R25).
That the pair is on the curve is the invariant `State.PointsOnCurve` of Safety.lean, kept by every step. -/
structure Point where
  x : Fe
  y : Fe
deriving DecidableEq, Repr

/-- The number of a field register, F0 to F15 (R21, R81). -/
abbrev FReg := Fin 16

/-- The number of a point register, P0 to P7 (R23, R81). -/
abbrev PReg := Fin 8

/-- The number of a scalar register, S0 to S3 (R26, R81). -/
abbrev SReg := Fin 4

end Sys2Proof
end

