-- ==== Sys2Proof/Syntax.lean ====
section
/-! DEFINITION. The commands of ED25519-AU as syntax: one constructor per row of spec/opcode_table.json (30_encoding.md R82, R85),
the pseudo-instructions of R91, the reasons a word is illegal (R86), and the form of a row of the opcode map. -/

namespace Sys2Proof

/-- A command. Register operands stand in the order destination `a`, sources `b`, `c` (R80, R90), each typed by its
register file (R81). A selector is the raw 12-bit imm field, as the assembler's `#n` writes it (R84, R90). -/
inductive Instr where
  | nop
  | fadd (a b c : FReg)
  | fsub (a b c : FReg)
  | fmul (a b c : FReg)
  | fneg (a b : FReg)
  | finv (a b : FReg)
  | fpow (a b : FReg) (c : SReg)
  | fisneg (b : FReg)
  | feq (b c : FReg)
  | fld (a : FReg)
  | fst (b : FReg)
  | fconst (a : FReg) (sel : BitVec 12)
  | padd (a b c : PReg)
  | pdbl (a b : PReg)
  | pneg (a b : PReg)
  | psmul (a b : PReg) (c : SReg)
  | psmulb (a : PReg) (c : SReg)
  | penc (b : PReg)
  | pdec (a : PReg)
  | pchk (b c : FReg)
  | pset (a : PReg) (b c : FReg)
  | pgetx (a : FReg) (b : PReg)
  | pgety (a : FReg) (b : PReg)
  | peq (b c : PReg)
  | pconst (a : PReg) (sel : BitVec 12)
  | sld (a : SReg)
  | sst (b : SReg)
deriving DecidableEq, Repr

/-- Why a word matches no row of the opcode map: the cases R86 lists. Which one is named is not observable. -/
inductive IllegalWord where
  | opcode       -- an opcode not in R85
  | pointField   -- a used P field of 8 to 15
  | scalarField  -- a used S field of 4 to 15
  | unusedField  -- a non-zero unused register field
  | immediate    -- a non-zero imm in a command without a selector
  | selector     -- an FCONST imm above 3 or a PCONST imm above 1
deriving DecidableEq, Repr

/-- A row of the opcode map of R85: a word is of the row when `w &&& mask = value`. -/
structure OpRow where
  mnemonic : String
  value    : Word
  mask     : Word
deriving DecidableEq, Repr

/-- The pseudo-instructions of R91; `t` is a scratch register. -/
inductive Pseudo where
  | fsqr (a b : FReg)
  | fmov (a b : FReg)
  | fdiv (a b c t : FReg)
  | pmov (a b : PReg)
  | psub (a b c t : PReg)
  | fclr (a : FReg)
deriving DecidableEq, Repr

end Sys2Proof
end

