-- ==== Sys2Proof/WellFormed.lean ====
section
/-! DEFINITION. Which commands are well formed. Register numbers are in range by their types (R81); what is left to check is
the selector of FCONST and PCONST (30_encoding.md R84), and the scratch register of a pseudo-instruction (R91). -/

namespace Sys2Proof

/-- FCONST needs imm[11:2] = 0 and PCONST needs imm[11:1] = 0 (R84); every other command is well formed. -/
def wellFormed (i : Instr) : Bool :=
  match i with
  | .nop => true
  | .fadd _ _ _ => true
  | .fsub _ _ _ => true
  | .fmul _ _ _ => true
  | .fneg _ _ => true
  | .finv _ _ => true
  | .fpow _ _ _ => true
  | .fisneg _ => true
  | .feq _ _ => true
  | .fld _ => true
  | .fst _ => true
  | .fconst _ sel => decide (sel.toNat ≤ 3)
  | .padd _ _ _ => true
  | .pdbl _ _ => true
  | .pneg _ _ => true
  | .psmul _ _ _ => true
  | .psmulb _ _ => true
  | .penc _ => true
  | .pdec _ => true
  | .pchk _ _ => true
  | .pset _ _ _ => true
  | .pgetx _ _ => true
  | .pgety _ _ => true
  | .peq _ _ => true
  | .pconst _ sel => decide (sel.toNat ≤ 1)
  | .sld _ => true
  | .sst _ => true

/-- The scratch register of FDIV and PSUB differs from the first source (R91: t != b). -/
def Pseudo.wellFormed (i : Pseudo) : Bool :=
  match i with
  | .fsqr _ _ => true
  | .fmov _ _ => true
  | .fdiv _ b _ t => decide (t ≠ b)
  | .pmov _ _ => true
  | .psub _ b _ t => decide (t ≠ b)
  | .fclr _ => true

end Sys2Proof
end

