-- ==== Sys2Proof/Decode.lean ====
section
/-! DEFINITION. The command word (spec/30_encoding.md): its fields, the decoder (total, rejecting by name), the encoder,
and the opcode map of R85 as a table. The decoder is written from the formats (R81, R82, R84) and the table from R85's masks:
that they agree is a statement. -/

namespace Sys2Proof

/-! ### Fields of a word (R80) -/

/-- op: bits 31:24. -/
def opField (w : Word) : BitVec 8 := w.extractLsb' 24 8
/-- a: bits 23:20. -/
def aField (w : Word) : BitVec 4 := w.extractLsb' 20 4
/-- b: bits 19:16. -/
def bField (w : Word) : BitVec 4 := w.extractLsb' 16 4
/-- c: bits 15:12. -/
def cField (w : Word) : BitVec 4 := w.extractLsb' 12 4
/-- imm: bits 11:0. -/
def immField (w : Word) : BitVec 12 := w.extractLsb' 0 12

/-- The word with the given fields (R80). -/
def commandWord (op : BitVec 8) (a b c : BitVec 4) (imm : BitVec 12) : Word := op ++ a ++ b ++ c ++ imm

/-! ### Reading one field (R81, R84, R86) -/

/-- A used F field takes any of its 16 values. -/
def readF (x : BitVec 4) : Except IllegalWord FReg := .ok ⟨x.toNat, x.isLt⟩

/-- A used P field must be 0 to 7. -/
def readP (x : BitVec 4) : Except IllegalWord PReg :=
  if h : x.toNat < 8 then .ok ⟨x.toNat, h⟩ else .error .pointField

/-- A used S field must be 0 to 3. -/
def readS (x : BitVec 4) : Except IllegalWord SReg :=
  if h : x.toNat < 4 then .ok ⟨x.toNat, h⟩ else .error .scalarField

/-- A register field the command does not use must be 0. -/
def readUnused (x : BitVec 4) : Except IllegalWord Unit := if x = 0#4 then .ok () else .error .unusedField

/-- imm must be 0 in a command without a selector. -/
def readNoImm (x : BitVec 12) : Except IllegalWord Unit := if x = 0#12 then .ok () else .error .immediate

/-- A selector must be at most `most` (FCONST 3, PCONST 1). -/
def readSel (most : Nat) (x : BitVec 12) : Except IllegalWord (BitVec 12) :=
  if x.toNat ≤ most then .ok x else .error .selector

/-! ### The formats (R82) -/

/-- Format N: every field is unused. -/
def formatN (i : Instr) (w : Word) : Except IllegalWord Instr := do
  readUnused (aField w)
  readUnused (bField w)
  readUnused (cField w)
  readNoImm (immField w)
  return i

/-- Format RRR: dest, src1, src2. -/
def formatRRR {α β γ : Type} (ra : BitVec 4 → Except IllegalWord α) (rb : BitVec 4 → Except IllegalWord β)
    (rc : BitVec 4 → Except IllegalWord γ) (k : α → β → γ → Instr) (w : Word) : Except IllegalWord Instr := do
  let a ← ra (aField w)
  let b ← rb (bField w)
  let c ← rc (cField w)
  readNoImm (immField w)
  return k a b c

/-- Format RR: dest, src. -/
def formatRR {α β : Type} (ra : BitVec 4 → Except IllegalWord α) (rb : BitVec 4 → Except IllegalWord β)
    (k : α → β → Instr) (w : Word) : Except IllegalWord Instr := do
  let a ← ra (aField w)
  let b ← rb (bField w)
  readUnused (cField w)
  readNoImm (immField w)
  return k a b

/-- Format RC: dest in a, source in c. -/
def formatRC {α γ : Type} (ra : BitVec 4 → Except IllegalWord α) (rc : BitVec 4 → Except IllegalWord γ)
    (k : α → γ → Instr) (w : Word) : Except IllegalWord Instr := do
  let a ← ra (aField w)
  readUnused (bField w)
  let c ← rc (cField w)
  readNoImm (immField w)
  return k a c

/-- Format D: dest only. -/
def formatD {α : Type} (ra : BitVec 4 → Except IllegalWord α) (k : α → Instr) (w : Word) : Except IllegalWord Instr := do
  let a ← ra (aField w)
  readUnused (bField w)
  readUnused (cField w)
  readNoImm (immField w)
  return k a

/-- Format S1: one source, in b. -/
def formatS1 {β : Type} (rb : BitVec 4 → Except IllegalWord β) (k : β → Instr) (w : Word) : Except IllegalWord Instr := do
  readUnused (aField w)
  let b ← rb (bField w)
  readUnused (cField w)
  readNoImm (immField w)
  return k b

/-- Format S2: two sources, in b and c. -/
def formatS2 {β γ : Type} (rb : BitVec 4 → Except IllegalWord β) (rc : BitVec 4 → Except IllegalWord γ)
    (k : β → γ → Instr) (w : Word) : Except IllegalWord Instr := do
  readUnused (aField w)
  let b ← rb (bField w)
  let c ← rc (cField w)
  readNoImm (immField w)
  return k b c

/-- Format I: dest and selector. -/
def formatI {α : Type} (ra : BitVec 4 → Except IllegalWord α) (most : Nat) (k : α → BitVec 12 → Instr) (w : Word) :
    Except IllegalWord Instr := do
  let a ← ra (aField w)
  readUnused (bField w)
  readUnused (cField w)
  let sel ← readSel most (immField w)
  return k a sel

/-! ### The decoder (R85, R86, R88) -/

/-- The command a word stands for, or why it is illegal. Every word is one or the other (R88). -/
def decode (w : Word) : Except IllegalWord Instr :=
  match (opField w).toNat with
  | 0x00 => formatN .nop w
  | 0x01 => formatRRR readF readF readF .fadd w
  | 0x02 => formatRRR readF readF readF .fsub w
  | 0x03 => formatRRR readF readF readF .fmul w
  | 0x04 => formatRR readF readF .fneg w
  | 0x05 => formatRR readF readF .finv w
  | 0x06 => formatRRR readF readF readS .fpow w
  | 0x07 => formatS1 readF .fisneg w
  | 0x08 => formatS2 readF readF .feq w
  | 0x09 => formatD readF .fld w
  | 0x0A => formatS1 readF .fst w
  | 0x0B => formatI readF 3 .fconst w
  | 0x10 => formatRRR readP readP readP .padd w
  | 0x11 => formatRR readP readP .pdbl w
  | 0x12 => formatRR readP readP .pneg w
  | 0x13 => formatRRR readP readP readS .psmul w
  | 0x14 => formatRC readP readS .psmulb w
  | 0x15 => formatS1 readP .penc w
  | 0x16 => formatD readP .pdec w
  | 0x17 => formatS2 readF readF .pchk w
  | 0x18 => formatRRR readP readF readF .pset w
  | 0x19 => formatRR readF readP .pgetx w
  | 0x1A => formatRR readF readP .pgety w
  | 0x1B => formatS2 readP readP .peq w
  | 0x1C => formatI readP 1 .pconst w
  | 0x20 => formatD readS .sld w
  | 0x21 => formatS1 readS .sst w
  | _ => .error .opcode

/-! ### The encoder (R80, R82, R85) -/

/-- A register number as its 4-bit field (R83). -/
def regField {n : Nat} (r : Fin n) : BitVec 4 := BitVec.ofNat 4 r.val

/-- The word of a command; of an ill-formed one, the illegal word the assembler's `#n` makes (R90). -/
def encode (i : Instr) : Word :=
  match i with
  | .nop => commandWord 0x00#8 0#4 0#4 0#4 0#12
  | .fadd a b c => commandWord 0x01#8 (regField a) (regField b) (regField c) 0#12
  | .fsub a b c => commandWord 0x02#8 (regField a) (regField b) (regField c) 0#12
  | .fmul a b c => commandWord 0x03#8 (regField a) (regField b) (regField c) 0#12
  | .fneg a b => commandWord 0x04#8 (regField a) (regField b) 0#4 0#12
  | .finv a b => commandWord 0x05#8 (regField a) (regField b) 0#4 0#12
  | .fpow a b c => commandWord 0x06#8 (regField a) (regField b) (regField c) 0#12
  | .fisneg b => commandWord 0x07#8 0#4 (regField b) 0#4 0#12
  | .feq b c => commandWord 0x08#8 0#4 (regField b) (regField c) 0#12
  | .fld a => commandWord 0x09#8 (regField a) 0#4 0#4 0#12
  | .fst b => commandWord 0x0A#8 0#4 (regField b) 0#4 0#12
  | .fconst a sel => commandWord 0x0B#8 (regField a) 0#4 0#4 sel
  | .padd a b c => commandWord 0x10#8 (regField a) (regField b) (regField c) 0#12
  | .pdbl a b => commandWord 0x11#8 (regField a) (regField b) 0#4 0#12
  | .pneg a b => commandWord 0x12#8 (regField a) (regField b) 0#4 0#12
  | .psmul a b c => commandWord 0x13#8 (regField a) (regField b) (regField c) 0#12
  | .psmulb a c => commandWord 0x14#8 (regField a) 0#4 (regField c) 0#12
  | .penc b => commandWord 0x15#8 0#4 (regField b) 0#4 0#12
  | .pdec a => commandWord 0x16#8 (regField a) 0#4 0#4 0#12
  | .pchk b c => commandWord 0x17#8 0#4 (regField b) (regField c) 0#12
  | .pset a b c => commandWord 0x18#8 (regField a) (regField b) (regField c) 0#12
  | .pgetx a b => commandWord 0x19#8 (regField a) (regField b) 0#4 0#12
  | .pgety a b => commandWord 0x1A#8 (regField a) (regField b) 0#4 0#12
  | .peq b c => commandWord 0x1B#8 0#4 (regField b) (regField c) 0#12
  | .pconst a sel => commandWord 0x1C#8 (regField a) 0#4 0#4 sel
  | .sld a => commandWord 0x20#8 (regField a) 0#4 0#4 0#12
  | .sst b => commandWord 0x21#8 0#4 (regField b) 0#4 0#12

/-! ### The opcode map (R85) -/

/-- The row's mnemonic of each command, as spec/opcode_table.json spells it. -/
def Instr.mnemonic (i : Instr) : String :=
  match i with
  | .nop => "NOP"
  | .fadd _ _ _ => "FADD"
  | .fsub _ _ _ => "FSUB"
  | .fmul _ _ _ => "FMUL"
  | .fneg _ _ => "FNEG"
  | .finv _ _ => "FINV"
  | .fpow _ _ _ => "FPOW"
  | .fisneg _ => "FISNEG"
  | .feq _ _ => "FEQ"
  | .fld _ => "FLD"
  | .fst _ => "FST"
  | .fconst _ _ => "FCONST"
  | .padd _ _ _ => "PADD"
  | .pdbl _ _ => "PDBL"
  | .pneg _ _ => "PNEG"
  | .psmul _ _ _ => "PSMUL"
  | .psmulb _ _ => "PSMULB"
  | .penc _ => "PENC"
  | .pdec _ => "PDEC"
  | .pchk _ _ => "PCHK"
  | .pset _ _ _ => "PSET"
  | .pgetx _ _ => "PGETX"
  | .pgety _ _ => "PGETY"
  | .peq _ _ => "PEQ"
  | .pconst _ _ => "PCONST"
  | .sld _ => "SLD"
  | .sst _ => "SST"

/-- The rows of NOP and the field commands. -/
def fieldRows : List OpRow := [
  ⟨"NOP", 0x00000000#32, 0xFFFFFFFF#32⟩,
  ⟨"FADD", 0x01000000#32, 0xFF000FFF#32⟩,
  ⟨"FSUB", 0x02000000#32, 0xFF000FFF#32⟩,
  ⟨"FMUL", 0x03000000#32, 0xFF000FFF#32⟩,
  ⟨"FNEG", 0x04000000#32, 0xFF00FFFF#32⟩,
  ⟨"FINV", 0x05000000#32, 0xFF00FFFF#32⟩,
  ⟨"FPOW", 0x06000000#32, 0xFF00CFFF#32⟩,
  ⟨"FISNEG", 0x07000000#32, 0xFFF0FFFF#32⟩,
  ⟨"FEQ", 0x08000000#32, 0xFFF00FFF#32⟩,
  ⟨"FLD", 0x09000000#32, 0xFF0FFFFF#32⟩,
  ⟨"FST", 0x0A000000#32, 0xFFF0FFFF#32⟩,
  ⟨"FCONST", 0x0B000000#32, 0xFF0FFFFC#32⟩]

/-- The rows of the point and scalar commands. -/
def pointScalarRows : List OpRow := [
  ⟨"PADD", 0x10000000#32, 0xFF888FFF#32⟩,
  ⟨"PDBL", 0x11000000#32, 0xFF88FFFF#32⟩,
  ⟨"PNEG", 0x12000000#32, 0xFF88FFFF#32⟩,
  ⟨"PSMUL", 0x13000000#32, 0xFF88CFFF#32⟩,
  ⟨"PSMULB", 0x14000000#32, 0xFF8FCFFF#32⟩,
  ⟨"PENC", 0x15000000#32, 0xFFF8FFFF#32⟩,
  ⟨"PDEC", 0x16000000#32, 0xFF8FFFFF#32⟩,
  ⟨"PCHK", 0x17000000#32, 0xFFF00FFF#32⟩,
  ⟨"PSET", 0x18000000#32, 0xFF800FFF#32⟩,
  ⟨"PGETX", 0x19000000#32, 0xFF08FFFF#32⟩,
  ⟨"PGETY", 0x1A000000#32, 0xFF08FFFF#32⟩,
  ⟨"PEQ", 0x1B000000#32, 0xFFF88FFF#32⟩,
  ⟨"PCONST", 0x1C000000#32, 0xFF8FFFFE#32⟩,
  ⟨"SLD", 0x20000000#32, 0xFFCFFFFF#32⟩,
  ⟨"SST", 0x21000000#32, 0xFFFCFFFF#32⟩]

/-- The opcode map of R85: 27 rows, masks and matches as the table prints them. -/
def opcodeTable : List OpRow := fieldRows ++ pointScalarRows

/-- The word is of the row (R85). -/
def OpRow.matchesWord (r : OpRow) (w : Word) : Bool := w &&& r.mask == r.value

/-! ### The host's entry -/

/-- The command the decoder reads from a word given as a number, bits at and above `nbits` taken as 0. A command is one
32-bit word, written to CMD in one access: there is no byte stream to lay out (R80, R89). -/
def decodeTableWord (nbits w : Nat) : Option Instr :=
  if nbits ≤ 32 then
    match decode (BitVec.ofNat 32 (w % 2 ^ nbits)) with
    | .ok i => some i
    | .error _ => none
  else none

end Sys2Proof
end

