-- ==== Sys2Proof/Config.lean ====
section
/-! DEFINITION. The parameters the spec leaves OPEN to the platform (spec/92_eei_decisions.md; 93_implementation_defined.md U7).
Nothing constrains them: each is an opaque constant, so a claim holds for every value.
The third OPEN parameter, LAT, is no constant here: the place of the unit's turn in `State.bus` is the latency
(notes/assumptions/2.md). -/

namespace Sys2Proof

/-- BASE: the platform's base address of the 256-byte register window (R50, D9). -/
opaque Config.base : Nat

/-- IRQ_LINE: the line of the host's interrupt controller that the irq output drives (R207, D29). -/
opaque Config.irqLine : Nat

end Sys2Proof
end

