-- ==== Sys2Proof/Machine/Constants.lean ====
section
/-! DEFINITION. The domain constants of spec/00_scope.md R8 and the neutral point of R16: fixed data of the unit, not state (R20). -/

namespace Sys2Proof

/-- The canonical field element of an integer: its remainder in [0, q), also of a negative one (R10). -/
def Fe.ofInt (z : Int) : Fe :=
  ⟨(z % (q : Int)).toNat, by
    have hq : (0 : Int) < (q : Int) := by exact_mod_cast q_pos
    have h0 := Int.emod_nonneg z hq.ne'
    have h1 := Int.emod_lt_of_pos z hq
    omega⟩

/-- The canonical field element of a natural number (R10). -/
def Fe.ofNat (n : Nat) : Fe := ⟨n % q, Nat.mod_lt n q_pos⟩

def Fe.zero : Fe := Fe.ofNat 0
def Fe.one : Fe := Fe.ofNat 1

/-- d, the curve coefficient -121665/121666 mod q (R8). -/
def curveD : Fe := Fe.ofNat 37095705934669439343138083508754565189542113879843219016388785533085940283555

/-- I, the even square root of -1 (R8, D19). -/
def sqrtMinusOne : Fe := Fe.ofNat 19681161376707505956807079304988542015446066515923890162744021073123829784752

/-- B, the base point (R8). -/
def basePoint : Point :=
  ⟨Fe.ofNat 15112221349535400772501151409588531511454012693041857206046113283949847762202,
   Fe.ofNat 46316835694926478169428394003475163141307993866256225615783033603165251855960⟩

/-- l, the order of B (R8). No command reads it. -/
def orderL : Nat := 7237005577332262213973186563042994240857116359379907606001950938285454250989

/-- N = (0, 1), the neutral point (R16). -/
def neutral : Point := ⟨Fe.zero, Fe.one⟩

end Sys2Proof
end

