-- ==== Sys2Proof/Machine/State.lean ====
section
/-! DEFINITION. The state of ED25519-AU (spec/10_state.md), the agents' turns (R20, R206), the reasons a step stops,
and the state after reset (R38). -/

namespace Sys2Proof.Machine

/-- The fault codes a command can end with (R200); NONE is the absence of one. -/
inductive FaultCode where
  | illegal
  | nonCanon
  | nonInv
  | decode
  | notOnCurve
deriving DecidableEq, Repr

/-- One turn of an agent or an event of the world outside (R20). The offset is relative to BASE (R13, R50).
`size` is the access's width in bytes; only 4 is supported (R55). -/
inductive Event where
  /-- The host writes `v`: MemWrite(BASE + off, size, v). -/
  | write (off : BitVec 8) (size : Nat) (v : Word)
  /-- The host reads: MemRead(BASE + off, size). -/
  | read (off : BitVec 8) (size : Nat)
  /-- The unit's turn: the completion step, when a command is running (R201). -/
  | unitTurn
  /-- The reset input becomes asserted (R240). -/
  | resetAssert
  /-- The reset input is released (R240). -/
  | resetRelease
deriving DecidableEq, Repr

/-- A host access as the bus saw it: what was written, or what a read returned. -/
inductive Access where
  | wrote (off : BitVec 8) (size : Nat) (v : Word)
  | got (off : BitVec 8) (size : Nat) (v : Word)
deriving DecidableEq, Repr

/-- Where the machine has no next state. No command fault of R200 is one of these: a command that faults completes
(R201, R202). -/
inductive Fault where
  /-- Raised by the completion step: BUSY = 1 with an empty LATCH. R39 says LATCH holds a word while BUSY = 1, and the
  invariant `Inv` keeps it so: no state that a run reaches raises it. Safe: the machine stops where the spec has no state. -/
  | busyWithoutCommand
deriving DecidableEq, Repr

/-- Where the spec gives no meaning. -/
inductive Refusal where
  /-- Raised by an arm of exec whose instruction has no meaning yet. Safe. -/
  | notModelled (mnemonic : String)
  /-- Raised by a host access while the reset input is asserted: the spec does not define it and gives it no effect
  (R240, 93_implementation_defined.md U5). Safe. -/
  | hostAccessInReset
deriving DecidableEq, Repr

/-- Everything the spec gives the machine, and the model's own three fields of the world outside. -/
structure State where
  /-- F0 to F15 (R21). -/
  f : Vector Fe 16
  /-- P0 to P7 (R23). -/
  p : Vector Point 8
  /-- S0 to S3 (R26). -/
  s : Vector Scalar 4
  /-- DBUF (R27). -/
  dbuf : Wide
  /-- LATCH: the accepted word while a command runs (R39). -/
  latch : Option Word
  /-- CMDRB: what a read of CMD returns (R36, R201). -/
  cmdrb : Word
  /-- CTRL.STRICT (R34). -/
  strict : Bool
  /-- CTRL.IRQ_EN (R34). -/
  irqEn : Bool
  /-- STATUS.BUSY (R35). -/
  busy : Bool
  /-- STATUS.DONE (R35). -/
  done : Bool
  /-- STATUS.ERR (R35). -/
  err : Bool
  /-- STATUS.FLAG (R35). -/
  flag : Bool
  /-- STATUS.LOST (R35). -/
  lost : Bool
  /-- STATUS.ECODE (R35, R200). -/
  ecode : BitVec 4
  /-- The level of the reset input: true while it is asserted (R240). -/
  resetPin : Bool
  /-- The model's own: the turns still to come, the next one first. Their order is the order the bus serialises the masters'
  accesses in (R64), and where the unit's turns stand among them is the latency and the interleaving the spec leaves open
  (R206, R254). -/
  bus : List Event
  /-- The model's own: the host accesses made so far, the latest first. -/
  trace : List Access
deriving DecidableEq, Repr

/-- The outcome of a step. -/
abbrev Result := Host.Outcome State Fault Refusal

/-- The state right after reset (R38, R242), with the reset input released and no turn to come. -/
def State.reset : State where
  f := Vector.replicate 16 Fe.zero
  p := Vector.replicate 8 neutral
  s := Vector.replicate 4 0#256
  dbuf := 0#256
  latch := none
  cmdrb := 0#32
  strict := true
  irqEn := false
  busy := false
  done := false
  err := false
  flag := false
  lost := false
  ecode := 0#4
  resetPin := false
  bus := []
  trace := []

end Sys2Proof.Machine
end

