-- ==== Sys2Proof/Machine/Flags.lean ====
section
/-! DEFINITION. CTRL and STATUS as words, the clearing writes, the fault codes and the interrupt output
(spec/10_state.md R34, R35; 60_exceptions.md R200, R207). FLAG has no computation but its predicate's: see Field.lean, PointCommands.lean. -/

namespace Sys2Proof.Machine

/-- The code ECODE records (R200). -/
def FaultCode.code (c : FaultCode) : BitVec 4 :=
  match c with
  | .illegal => 1#4
  | .nonCanon => 2#4
  | .nonInv => 3#4
  | .decode => 4#4
  | .notOnCurve => 5#4

/-- CTRL as read: STRICT in bit 0, IRQ_EN in bit 1, the rest 0, SOFT_RESET too (R34). -/
def State.ctrlWord (st : State) : Word :=
  0#30 ++ BitVec.ofBool st.irqEn ++ BitVec.ofBool st.strict

/-- STATUS as read: ECODE in 11:8, LOST 4, FLAG 3, ERR 2, DONE 1, BUSY 0, the rest 0 (R35). -/
def State.statusWord (st : State) : Word :=
  0#20 ++ st.ecode ++ 0#3 ++ BitVec.ofBool st.lost ++ BitVec.ofBool st.flag ++ BitVec.ofBool st.err
    ++ BitVec.ofBool st.done ++ BitVec.ofBool st.busy

/-- A write to STATUS: a 1 clears DONE, ERR (and ECODE with it) or LOST; nothing else changes (R35). Clearing ERR is the
return from a fault (R208). -/
def State.clearStatus (v : Word) (st : State) : State :=
  { st with
    done := st.done && !v.getLsbD 1
    err := st.err && !v.getLsbD 2
    ecode := if v.getLsbD 2 then 0#4 else st.ecode
    lost := st.lost && !v.getLsbD 4 }

/-- irq = CTRL.IRQ_EN and STATUS.DONE (R207). -/
def State.irq (st : State) : Bool := st.irqEn && st.done

/-- The level the unit drives on line `n` of the host's interrupt controller: irq on IRQ_LINE (R207). -/
def State.drivesLine (st : State) (n : Nat) : Bool := decide (n = Config.irqLine) && st.irq

end Sys2Proof.Machine
end

