-- ==== Sys2Proof/Machine/FieldArith.lean ====
section
/-! DEFINITION. Arithmetic in [0, q) (spec/00_scope.md R10, R15; 40_field.md R101): exact integer arithmetic, then one reduction. -/

namespace Sys2Proof

/-- (a + b) mod q (R102). -/
def Fe.add (a b : Fe) : Fe := Fe.ofNat (a.val + b.val)

/-- (a - b) mod q (R103). -/
def Fe.sub (a b : Fe) : Fe := Fe.ofInt ((a.val : Int) - b.val)

/-- a * b mod q, the ordinary residue (R104). -/
def Fe.mul (a b : Fe) : Fe := Fe.ofNat (a.val * b.val)

/-- (0 - a) mod q (R105). -/
def Fe.neg (a : Fe) : Fe := Fe.ofInt (0 - (a.val : Int))

/-- Square and multiply from the top bit down: b^k mod m for k < 2^fuel. That it is b^k mod m is `powMod_eq`. -/
def powMod (m b : Nat) : Nat → Nat → Nat
  | 0, _ => 1
  | fuel + 1, k =>
    if k = 0 then 1
    else
      let h := powMod m b fuel (k / 2)
      let h2 := h * h % m
      if k % 2 = 1 then h2 * b % m else h2

/-- a^k mod q for a 256-bit exponent, with a^0 = 1 for every a (R107). -/
def Fe.pow (a : Fe) (k : Nat) : Fe := Fe.ofNat (powMod q a.val 256 k)

/-- inv_q(a) = a^(q-2) mod q (R15). -/
def Fe.inv (a : Fe) : Fe := Fe.pow a (q - 2)

/-- isNeg(a) = a[0], the least significant bit of the canonical value (R15, R108). -/
def Fe.isNeg (a : Fe) : Bool := a.val.testBit 0

/-- onCurve(x, y): (-x^2 + y^2 - 1 - d*x^2*y^2) mod q = 0 (R15). -/
def onCurve (x y : Fe) : Bool :=
  Fe.ofInt (-((x.val : Int) * x.val) + (y.val : Int) * y.val - 1
    - (curveD.val : Int) * (x.val * x.val) * (y.val * y.val)) == Fe.zero

/-- A square root of a, or none where a is no square: the method of R147's last paragraph for q mod 8 = 5
(93_implementation_defined.md G3). Which root it is, is not architectural: PDEC takes the one of the asked parity. -/
def Fe.sqrt (a : Fe) : Option Fe :=
  let r := Fe.pow a ((q + 3) / 8)
  if Fe.mul r r = a then some r
  else
    let r' := Fe.mul r sqrtMinusOne
    if Fe.mul r' r' = a then some r' else none

end Sys2Proof
end

