-- ==== Sys2Proof/Machine/PointArith.lean ====
section
/-! DEFINITION. The group law and scalar multiplication (spec/41_point.md R140, R143, R144; 00_scope.md R16). -/

namespace Sys2Proof

/-- P ⊕ Q, the formula of R140. -/
def Point.add (P Q : Point) : Point :=
  let t := curveD.val * P.x.val * Q.x.val * P.y.val * Q.y.val % q
  { x := Fe.ofNat ((P.x.val * Q.y.val + Q.x.val * P.y.val) * (Fe.inv (Fe.ofNat (1 + t))).val)
    y := Fe.ofNat ((P.y.val * Q.y.val + P.x.val * Q.x.val) * (Fe.inv (Fe.ofInt (1 - (t : Int)))).val) }

/-- ⊖P = ((-x) mod q, y) (R16, R143). -/
def Point.neg (P : Point) : Point := { x := Fe.neg P.x, y := P.y }

/-- The k-fold sum P ⊕ ... ⊕ P, with [0]P = N, as R16 defines it. -/
def Point.kFold (P : Point) : Nat → Point
  | 0 => neutral
  | k + 1 => Point.add (Point.kFold P k) P

/-- Double and add from the top bit down, for k < 2^fuel: the algorithm of R144 is free. That it is the k-fold sum of a point
of the curve is `Point.smul_eq_kFold`. -/
def Point.doubleAdd (P : Point) : Nat → Nat → Point
  | 0, _ => neutral
  | fuel + 1, k =>
    if k = 0 then neutral
    else
      let h := Point.doubleAdd P fuel (k / 2)
      let h2 := Point.add h h
      if k % 2 = 1 then Point.add h2 P else h2

/-- [k]P for a 256-bit k (R144, R145). -/
def Point.smul (k : Nat) (P : Point) : Point := Point.doubleAdd P 256 k

end Sys2Proof
end

