-- ==== Sys2Proof/Machine/Operands.lean ====
section
/-! DEFINITION. Operand forms: the encodings that pass through DBUF (spec/20_memory.md R52, R54; 41_point.md R146, R147),
the selectors (30_encoding.md R84), the words of DBUF, and addresses of the window (R50, R53). -/

namespace Sys2Proof.Machine

/-! ### Encodings (R54) -/

/-- A field element in DBUF (R111). -/
def encodeField (v : Fe) : Wide := BitVec.ofNat 256 v.val

/-- The field element of DBUF: rejected, or reduced, where DBUF >= q (R110). -/
def decodeField (strict : Bool) (v : Wide) : Except FaultCode Fe :=
  if v.toNat ≥ q && strict then .error .nonCanon else .ok (Fe.ofNat v.toNat)

/-- A compressed point in DBUF: y in bits 254:0, the sign of x in bit 255 (R146). -/
def encodePoint (P : Point) : Wide := BitVec.ofNat 256 (P.y.val + ((Fe.isNeg P.x).toNat <<< 255))

/-- x^2 = (y^2 - 1) / (d*y^2 + 1), the x2 of R147. -/
def xSquared (y : Fe) : Fe :=
  let u := Fe.ofInt ((y.val : Int) * y.val - 1)
  let w2 := Fe.ofNat (curveD.val * y.val * y.val + 1)
  Fe.mul u (Fe.inv w2)

/-- The point with a given y and sign of x, or DECODE (R147). -/
def recoverPoint (strict : Bool) (y : Fe) (sign : Bool) : Except FaultCode Point :=
  match Fe.sqrt (xSquared y) with
  | none => .error .decode
  | some r =>
    if xSquared y = Fe.zero then
      if sign && strict then .error .decode else .ok ⟨Fe.zero, y⟩
    else if Fe.isNeg r = sign then .ok ⟨r, y⟩
    else .ok ⟨Fe.neg r, y⟩

/-- The point of DBUF (R147). -/
def decodePoint (strict : Bool) (v : Wide) : Except FaultCode Point :=
  let y := v.toNat % 2 ^ 255
  if y ≥ q && strict then .error .decode else recoverPoint strict (Fe.ofNat y) (v.getLsbD 255)

/-! ### Selectors (R84) -/

/-- The constant of FCONST's selector; none for a selector above 3 (R112). -/
def fieldConstant (sel : BitVec 12) : Option Fe :=
  match sel.toNat with
  | 0 => some Fe.zero
  | 1 => some Fe.one
  | 2 => some curveD
  | 3 => some sqrtMinusOne
  | _ => none

/-- The constant of PCONST's selector; none for a selector above 1 (R153). -/
def pointConstant (sel : BitVec 12) : Option Point :=
  match sel.toNat with
  | 0 => some neutral
  | 1 => some basePoint
  | _ => none

/-! ### Words and addresses -/

/-- DBUFj = DBUF[32j+31 : 32j] (R52). -/
def dbufWord (v : Wide) (j : Nat) : Word := v.extractLsb' (32 * j) 32

/-- DBUF with word j replaced (R52). -/
def setDbufWord (v : Wide) (j : Nat) (w : Word) : Wide :=
  (v &&& ~~~(BitVec.ofNat 256 0xFFFFFFFF <<< (32 * j))) ||| (w.setWidth 256 <<< (32 * j))

/-- The address a window offset has on the host's bus (R13, R50). -/
def busAddress (off : BitVec 8) : Nat := Config.base + off.toNat

/-- The window offset of a bus address, none outside the 256 bytes (R50). -/
def windowOffset (addr : Nat) : Option (BitVec 8) :=
  if Config.base ≤ addr ∧ addr < Config.base + 256 then some (BitVec.ofNat 8 (addr - Config.base)) else none

end Sys2Proof.Machine
end

