-- ==== Sys2Proof/Machine/Ops.lean ====
section
/-! DEFINITION. The named operations over the state: register files, the completion of a command with and without a fault
(spec/60_exceptions.md R201, R202), reset (70_reset_and_hazards.md R240, R241) and the host's accesses to the window
(20_memory.md R50 to R58; 10_state.md R33 to R37; 70_reset_and_hazards.md R250). -/

namespace Sys2Proof.Machine

/-! ### Register files (R83): an operand is the field's value used as an index -/

def State.getF (st : State) (r : FReg) : Fe := st.f[r.val]
def State.getP (st : State) (r : PReg) : Point := st.p[r.val]
def State.getS (st : State) (r : SReg) : Scalar := st.s[r.val]

def State.setF (st : State) (r : FReg) (v : Fe) : State := { st with f := st.f.set r.val v }
def State.setP (st : State) (r : PReg) (v : Point) : State := { st with p := st.p.set r.val v }
def State.setS (st : State) (r : SReg) (v : Scalar) : State := { st with s := st.s.set r.val v }
def State.setDbuf (st : State) (v : Wide) : State := { st with dbuf := v }
def State.setFlag (st : State) (v : Bool) : State := { st with flag := v }

/-! ### The end of a command -/

/-- The bookkeeping of every completion: BUSY <- 0, DONE <- 1, LATCH <- empty (R201). -/
def State.finish (st : State) : State := { st with busy := false, done := true, latch := none }

/-- Taking a fault: ERR <- 1, ECODE <- code and the completion's bookkeeping. No register, DBUF or FLAG is written, nothing is
saved elsewhere and there is no vector (R201, R202). The return from it is `State.clearStatus` (R208). -/
def State.takeFault (c : FaultCode) (st : State) : State := { st.finish with err := true, ecode := c.code }

/-- The completion of a command whose pseudocode, run on `st`, gave `out`: its writes committed together, or its fault taken
(R201). -/
def conclude (out : Except FaultCode State) (st : State) : Result :=
  match out with
  | .error c => .next (st.takeFault c)
  | .ok st' => .next st'.finish

/-- Acceptance of a command word: discarded with LOST while BUSY or ERR (R201, R203). -/
def State.acceptCommand (w : Word) (st : State) : State :=
  if st.busy || st.err then { st with lost := true }
  else { st with latch := some w, cmdrb := w, busy := true }

/-! ### Reset -/

/-- Every state of R38 takes its reset value; a running command is discarded (R240, R241). What is outside the unit (the
input's level, the turns to come, the accesses made) is not touched. -/
def State.resetUnit (st : State) : State :=
  { State.reset with resetPin := st.resetPin, bus := st.bus, trace := st.trace }

/-- The reset input becomes asserted or is released: the unit's state is R38's either way (R240). -/
def State.driveReset (level : Bool) (st : State) : State := { st.resetUnit with resetPin := level }

/-! ### The window (R50) -/

/-- ID (R33). -/
def idWord : Word := 0x25510107#32

/-- A supported access: 4 bytes at a multiple of 4 (R55). -/
def supported (off : BitVec 8) (size : Nat) : Bool := size == 4 && off.toNat % 4 == 0

/-- The register word at an aligned offset; 0 at a reserved one (R32, R37, R50, R52). -/
def State.readRegister (st : State) (off : BitVec 8) : Word :=
  if off = 0x00#8 then idWord
  else if off = 0x04#8 then st.ctrlWord
  else if off = 0x08#8 then st.statusWord
  else if off = 0x0C#8 then st.cmdrb
  else if 0x40 ≤ off.toNat ∧ off.toNat < 0x60 then dbufWord st.dbuf ((off.toNat - 0x40) / 4)
  else 0#32

/-- What a host read returns: 0 for an unsupported access (R55). A read changes nothing (R56). -/
def State.hostRead (st : State) (off : BitVec 8) (size : Nat) : Word :=
  if supported off size then st.readRegister off else 0#32

/-- The byte at an offset of the window: byte lane k of its word is bits 8k+7 to 8k (R53). -/
def State.windowByte (st : State) (off : BitVec 8) : BitVec 8 :=
  (st.readRegister (BitVec.ofNat 8 (off.toNat - off.toNat % 4))).extractLsb' (8 * (off.toNat % 4)) 8

/-- A write to CTRL: bit 31 resets the unit whatever BUSY is; else it is discarded with LOST while BUSY (R34, R241, R250). -/
def State.writeCtrl (v : Word) (st : State) : State :=
  if v.getLsbD 31 then st.resetUnit
  else if st.busy then { st with lost := true }
  else { st with strict := v.getLsbD 0, irqEn := v.getLsbD 1 }

/-- A write to DBUFj: discarded with LOST while BUSY (R52, R250). -/
def State.writeDbuf (j : Nat) (v : Word) (st : State) : State :=
  if st.busy then { st with lost := true }
  else { st with dbuf := setDbufWord st.dbuf j v }

/-- A write to the register at an aligned offset; ID and reserved offsets ignore it, without LOST (R33, R37, R250). -/
def State.writeRegister (off : BitVec 8) (v : Word) (st : State) : State :=
  if off = 0x04#8 then st.writeCtrl v
  else if off = 0x08#8 then st.clearStatus v
  else if off = 0x0C#8 then st.acceptCommand v
  else if 0x40 ≤ off.toNat ∧ off.toNat < 0x60 then st.writeDbuf ((off.toNat - 0x40) / 4) v
  else st

/-- A host write: ignored, without LOST, where the access is unsupported (R55). -/
def State.hostWrite (off : BitVec 8) (size : Nat) (v : Word) (st : State) : State :=
  if supported off size then st.writeRegister off v else st

/-- The access is added to the accesses made. -/
def State.record (a : Access) (st : State) : State := { st with trace := a :: st.trace }

end Sys2Proof.Machine
end

