-- ==== Sys2Proof/Machine/Field.lean ====
section
/-! DEFINITION. The field commands (spec/40_field.md). Each meaning is the rule's pseudocode, concluded as R201 says. -/

namespace Sys2Proof.Machine

/-- FADD: F[a] <- (F[b] + F[c]) mod q (R102). -/
def execFadd (a b c : FReg) (st : State) : Result :=
  conclude (.ok (st.setF a (Fe.add (st.getF b) (st.getF c)))) st

/-- FSUB: F[a] <- (F[b] - F[c]) mod q (R103). -/
def execFsub (a b c : FReg) (st : State) : Result :=
  conclude (.ok (st.setF a (Fe.sub (st.getF b) (st.getF c)))) st

/-- FMUL: F[a] <- (F[b] * F[c]) mod q (R104). -/
def execFmul (a b c : FReg) (st : State) : Result :=
  conclude (.ok (st.setF a (Fe.mul (st.getF b) (st.getF c)))) st

/-- FNEG: F[a] <- (0 - F[b]) mod q (R105). -/
def execFneg (a b : FReg) (st : State) : Result :=
  conclude (.ok (st.setF a (Fe.neg (st.getF b)))) st

/-- FINV: NONINV where F[b] = 0, else F[a] <- F[b]^(q-2) mod q (R106). -/
def execFinv (a b : FReg) (st : State) : Result :=
  conclude (if st.getF b = Fe.zero then .error .nonInv else .ok (st.setF a (Fe.inv (st.getF b)))) st

/-- FPOW: F[a] <- F[b]^S[c] mod q (R107). -/
def execFpow (a b : FReg) (c : SReg) (st : State) : Result :=
  conclude (.ok (st.setF a (Fe.pow (st.getF b) (st.getS c).toNat))) st

/-- FISNEG: FLAG <- F[b][0] (R108). -/
def execFisneg (b : FReg) (st : State) : Result :=
  conclude (.ok (st.setFlag (Fe.isNeg (st.getF b)))) st

/-- FEQ: FLAG <- F[b] == F[c] (R109). -/
def execFeq (b c : FReg) (st : State) : Result :=
  conclude (.ok (st.setFlag (st.getF b == st.getF c))) st

/-- FLD: F[a] <- DBUF, NONCANON or reduced where DBUF >= q (R110). -/
def execFld (a : FReg) (st : State) : Result :=
  conclude ((decodeField st.strict st.dbuf).map (st.setF a)) st

/-- FST: DBUF <- F[b] (R111). -/
def execFst (b : FReg) (st : State) : Result :=
  conclude (.ok (st.setDbuf (encodeField (st.getF b)))) st

/-- FCONST: F[a] <- [0, 1, d, I][sel]; ILLEGAL where the selector is above 3 (R112, R86). -/
def execFconst (a : FReg) (sel : BitVec 12) (st : State) : Result :=
  conclude (match fieldConstant sel with | some v => .ok (st.setF a v) | none => .error .illegal) st

end Sys2Proof.Machine
end

