-- ==== Sys2Proof/Machine/PointCommands.lean ====
section
/-! DEFINITION. The point commands (spec/41_point.md). Each meaning is the rule's pseudocode, concluded as R201 says. -/

namespace Sys2Proof.Machine

/-- PADD: P[a] <- P[b] ⊕ P[c] (R141). -/
def execPadd (a b c : PReg) (st : State) : Result :=
  conclude (.ok (st.setP a (Point.add (st.getP b) (st.getP c)))) st

/-- PDBL: P[a] <- P[b] ⊕ P[b] (R142). -/
def execPdbl (a b : PReg) (st : State) : Result :=
  conclude (.ok (st.setP a (Point.add (st.getP b) (st.getP b)))) st

/-- PNEG: P[a] <- ⊖P[b] (R143). -/
def execPneg (a b : PReg) (st : State) : Result :=
  conclude (.ok (st.setP a (Point.neg (st.getP b)))) st

/-- PSMUL: P[a] <- [S[c]] P[b] (R144). -/
def execPsmul (a b : PReg) (c : SReg) (st : State) : Result :=
  conclude (.ok (st.setP a (Point.smul (st.getS c).toNat (st.getP b)))) st

/-- PSMULB: P[a] <- [S[c]] B (R145). -/
def execPsmulb (a : PReg) (c : SReg) (st : State) : Result :=
  conclude (.ok (st.setP a (Point.smul (st.getS c).toNat basePoint))) st

/-- PENC: DBUF <- P[b].y + (P[b].x[0] << 255) (R146). -/
def execPenc (b : PReg) (st : State) : Result :=
  conclude (.ok (st.setDbuf (encodePoint (st.getP b)))) st

/-- PDEC: P[a] <- the point DBUF encodes, or DECODE (R147). -/
def execPdec (a : PReg) (st : State) : Result :=
  conclude ((decodePoint st.strict st.dbuf).map (st.setP a)) st

/-- PCHK: FLAG <- onCurve(F[b], F[c]) (R148). -/
def execPchk (b c : FReg) (st : State) : Result :=
  conclude (.ok (st.setFlag (onCurve (st.getF b) (st.getF c)))) st

/-- PSET: P[a] <- (F[b], F[c]), NOTONCURVE where the pair is not on the curve (R149). -/
def execPset (a : PReg) (b c : FReg) (st : State) : Result :=
  conclude (if onCurve (st.getF b) (st.getF c) then .ok (st.setP a ⟨st.getF b, st.getF c⟩) else .error .notOnCurve) st

/-- PGETX: F[a] <- P[b].x (R150). -/
def execPgetx (a : FReg) (b : PReg) (st : State) : Result :=
  conclude (.ok (st.setF a (st.getP b).x)) st

/-- PGETY: F[a] <- P[b].y (R151). -/
def execPgety (a : FReg) (b : PReg) (st : State) : Result :=
  conclude (.ok (st.setF a (st.getP b).y)) st

/-- PEQ: FLAG <- both coordinates are equal (R152). -/
def execPeq (b c : PReg) (st : State) : Result :=
  conclude (.ok (st.setFlag ((st.getP b).x == (st.getP c).x && (st.getP b).y == (st.getP c).y))) st

/-- PCONST: P[a] <- [N, B][sel]; ILLEGAL where the selector is above 1 (R153, R86). -/
def execPconst (a : PReg) (sel : BitVec 12) (st : State) : Result :=
  conclude (match pointConstant sel with | some v => .ok (st.setP a v) | none => .error .illegal) st

end Sys2Proof.Machine
end

