-- ==== Sys2Proof/Machine/ScalarControl.lean ====
section
/-! DEFINITION. The scalar transfers and NOP (spec/42_scalar_control.md). -/

namespace Sys2Proof.Machine

/-- SLD: S[a] <- DBUF, all 256 bits, no range check (R180). -/
def execSld (a : SReg) (st : State) : Result :=
  conclude (.ok (st.setS a st.dbuf)) st

/-- SST: DBUF <- S[b] (R181). -/
def execSst (b : SReg) (st : State) : Result :=
  conclude (.ok (st.setDbuf (st.getS b))) st

/-- NOP: the command completes and changes nothing else (R182). -/
def execNop (st : State) : Result :=
  conclude (.ok st) st

end Sys2Proof.Machine
end

