-- ==== Sys2Proof/Machine/Dispatch.lean ====
section
/-! DEFINITION. One arm per command: the completion step of a legal word (spec/60_exceptions.md R201). -/

namespace Sys2Proof.Machine

def exec (i : Instr) (s : State) : Host.Outcome State Fault Refusal :=
  match i with
  | .nop => Sys2Proof.Machine.execNop s
  | .fadd a b c => Sys2Proof.Machine.execFadd a b c s
  | .fsub a b c => Sys2Proof.Machine.execFsub a b c s
  | .fmul a b c => Sys2Proof.Machine.execFmul a b c s
  | .fneg a b => Sys2Proof.Machine.execFneg a b s
  | .finv a b => Sys2Proof.Machine.execFinv a b s
  | .fpow a b c => Sys2Proof.Machine.execFpow a b c s
  | .fisneg b => Sys2Proof.Machine.execFisneg b s
  | .feq b c => Sys2Proof.Machine.execFeq b c s
  | .fld a => Sys2Proof.Machine.execFld a s
  | .fst b => Sys2Proof.Machine.execFst b s
  | .fconst a sel => Sys2Proof.Machine.execFconst a sel s
  | .padd a b c => Sys2Proof.Machine.execPadd a b c s
  | .pdbl a b => Sys2Proof.Machine.execPdbl a b s
  | .pneg a b => Sys2Proof.Machine.execPneg a b s
  | .psmul a b c => Sys2Proof.Machine.execPsmul a b c s
  | .psmulb a c => Sys2Proof.Machine.execPsmulb a c s
  | .penc b => Sys2Proof.Machine.execPenc b s
  | .pdec a => Sys2Proof.Machine.execPdec a s
  | .pchk b c => Sys2Proof.Machine.execPchk b c s
  | .pset a b c => Sys2Proof.Machine.execPset a b c s
  | .pgetx a b => Sys2Proof.Machine.execPgetx a b s
  | .pgety a b => Sys2Proof.Machine.execPgety a b s
  | .peq b c => Sys2Proof.Machine.execPeq b c s
  | .pconst a sel => Sys2Proof.Machine.execPconst a sel s
  | .sld a => Sys2Proof.Machine.execSld a s
  | .sst b => Sys2Proof.Machine.execSst b s

end Sys2Proof.Machine
end

