-- ==== Sys2Proof/Machine/Turns.lean ====
section
/-! DEFINITION. The turns of the agents (spec/10_state.md R20; 60_exceptions.md R201, R206). -/

namespace Sys2Proof.Machine

/-- The completion step: the word in LATCH is decoded and run, or ILLEGAL is taken (R201, R86, R205). -/
def completion (st : State) : Result :=
  match st.latch with
  | none => .fault .busyWithoutCommand
  | some w =>
    match decode w with
    | .ok i => exec i st
    | .error _ => .next (st.takeFault .illegal)

/-- The unit's turn: the completion step, enabled exactly while BUSY = 1 (R201); an idle unit does nothing (R215). -/
def unitTurn (st : State) : Result := if st.busy then completion st else .next st

/-- A host access has no step while the reset input is asserted (R240). -/
def hostTurn (st st' : State) : Result := if st.resetPin then .refused .hostAccessInReset else .next st'

/-- One turn (R20). -/
def takeTurn (e : Event) (st : State) : Result :=
  match e with
  | .write off size v => hostTurn st ((st.hostWrite off size v).record (.wrote off size v))
  | .read off size => hostTurn st (st.record (.got off size (st.hostRead off size)))
  | .unitTurn => unitTurn st
  | .resetAssert => .next (st.driveReset true)
  | .resetRelease => .next (st.driveReset false)

end Sys2Proof.Machine
end

