-- ==== Sys2Proof/Machine/Step.lean ====
section
/-! DEFINITION. One step of the machine: the next turn, and, with no turn left, the unit's own. -/

namespace Sys2Proof.Machine

/-- The first of the turns to come is taken. With none to come the unit has the turn, so a running command completes
(the fairness of R201), and an idle machine stays as it is (R215). -/
def step (st : State) : Host.Outcome State Fault Refusal :=
  match st.bus with
  | [] => unitTurn st
  | e :: rest => takeTurn e { st with bus := rest }

/-- `s` with the word `w` accepted (in LATCH, the CMD read-back and BUSY, as R201 has it) and the unit's turn next, so that
the next step is this command's completion. The unit has no program counter: this stands for the host's write to CMD
(R31, R36; notes/assumptions/3.md). -/
def State.withFetchWord (s : State) (nbits w : Nat) : State :=
  let word : Word := BitVec.ofNat 32 (w % 2 ^ nbits)
  { s with latch := some word, cmdrb := word, busy := true, bus := .unitTurn :: s.bus }

end Sys2Proof.Machine
end

