-- ==== Sys2Proof/Machine/Protocol.lean ====
section
/-! DEFINITION. What a host does with the unit, as turns on the bus: the issue protocol (spec/42_scalar_control.md R185),
its steps one by one, and the expansions of the pseudo-instructions (30_encoding.md R91). -/

namespace Sys2Proof.Machine

/-- The offset of DBUFj (R50). -/
def dbufOffset (j : Nat) : BitVec 8 := BitVec.ofNat 8 (0x40 + 4 * j)

/-- Step 1: the eight words of DBUF are written in order (R185, R52). -/
def fillTurns (v : Wide) : List Event :=
  (List.range 8).map fun j => .write (dbufOffset j) 4 (v.extractLsb' (32 * j) 32)

/-- Steps 2 to 4: the word is written to CMD, STATUS is read `polls` times while the command runs, the command completes, and
STATUS is read once more (R185's WAIT; the number of polls is the open latency). -/
def issueTurns (w : Word) (polls : Nat) : List Event :=
  .write 0x0C#8 4 w :: (List.replicate polls (.read 0x08#8 4) ++ [.unitTurn, .read 0x08#8 4])

/-- Step 5: the eight words of DBUF are read (R185). -/
def readBackTurns : List Event := (List.range 8).map fun j => .read (dbufOffset j) 4

/-- The real commands of a pseudo-instruction, issued in this order (R91). -/
def expand (i : Pseudo) : List Instr :=
  match i with
  | .fsqr a b => [.fmul a b b]
  | .fmov a b => [.fneg a b, .fneg a a]
  | .fdiv a b c t => [.finv t c, .fmul a b t]
  | .pmov a b => [.pneg a b, .pneg a a]
  | .psub a b c t => [.pneg t c, .padd a b t]
  | .fclr a => [.fconst a 0#12]

end Sys2Proof.Machine
end

