-- ==== Sys2Proof/Safety.lean ====
section
/-! DEFINITION. What claims are stated in: the invariants of the state (spec/10_state.md R21, R23, R35, R39; 70_reset_and_hazards.md
R240) and the end of a run (42_scalar_control.md R186). -/

namespace Sys2Proof.Machine

/-- Every P register holds a point of the curve (R23). That F registers hold canonical values (R21) and S registers and DBUF
256-bit values (R26, R27) is in the types of State. -/
def State.PointsOnCurve (st : State) : Prop := ∀ r : PReg, onCurve (st.getP r).x (st.getP r).y = true

/-- R35's invariants: ERR = 0 implies ECODE = 0, ERR = 1 implies ECODE is one of 1 to 5, BUSY = 1 implies ERR = 0. -/
def State.StatusConsistent (st : State) : Prop :=
  (st.err = false → st.ecode = 0#4) ∧
  (st.err = true → 1 ≤ st.ecode.toNat ∧ st.ecode.toNat ≤ 5) ∧
  (st.busy = true → st.err = false)

/-- R39: LATCH holds a word exactly while BUSY = 1, and it is the word a read of CMD returns. -/
def State.LatchConsistent (st : State) : Prop :=
  if st.busy then st.latch = some st.cmdrb else st.latch = none

/-- R240: while the reset input is asserted, every piece of the unit's state has its reset value. -/
def State.HeldInReset (st : State) : Prop := st.resetPin = true → st.resetUnit = st

/-- The invariant of the machine: it holds after reset and every step keeps it. -/
structure State.Inv (st : State) : Prop where
  points : st.PointsOnCurve
  status : st.StatusConsistent
  latch  : st.LatchConsistent
  reset  : st.HeldInReset

/-- A turn that issues a command: a supported write to CMD. -/
def Event.issues (e : Event) : Bool :=
  match e with
  | .write off size _ => off == 0x0C#8 && size == 4
  | .read _ _ => false
  | .unitTurn => false
  | .resetAssert => false
  | .resetRelease => false

/-- A turn that resets the unit: an edge of the reset input (R240), or a supported write to CTRL with bit 31 = 1 (R241). -/
def Event.resets (e : Event) : Bool :=
  match e with
  | .write off size v => off == 0x04#8 && size == 4 && v.getLsbD 31
  | .read _ _ => false
  | .unitTurn => false
  | .resetAssert => true
  | .resetRelease => true

/-- The access is a supported write to CMD. -/
def Access.issued (a : Access) : Bool :=
  match a with
  | .wrote off size _ => off == 0x0C#8 && size == 4
  | .got _ _ _ => false

/-- A host read of STATUS has returned BUSY = 0 after the last write to CMD, and there was one; the latest access stands first
(R186). -/
def idleSeen (accesses : List Access) : Bool :=
  match accesses with
  | [] => false
  | .got off size v :: rest =>
    (off == 0x08#8 && size == 4 && !v.getLsbD 0 && rest.any Access.issued) || idleSeen rest
  | .wrote off size _ :: rest => !(off == 0x0C#8 && size == 4) && idleSeen rest

/-- R186's two conditions: the host has issued its last command and has seen BUSY = 0 since. They hold at the end of a run and may
go on holding after it. -/
def State.runEnded (st : State) : Bool := !(st.bus.any Event.issues) && idleSeen st.trace

/-- The first state, in at most `k` steps from `st`, at which R186's conditions hold. There is none where a step before it has no
next state, or is a reset: R186 says nothing of a run cut short by a reset. That any reset, also a soft one, cuts the run short, is
the model's choice (notes/assumptions/17.md). -/
def State.runEndIn (k : Nat) (st : State) : Option State :=
  if st.runEnded then some st
  else
    match k with
    | 0 => none
    | k + 1 =>
      if (st.bus.head?.any Event.resets) then none
      else
        match step st with
        | .next t => t.runEndIn k
        | .fault _ => none
        | .refused _ => none

/-- The end of the run that starts at `st`: the first point of R186. A run starts with no access made, and the accesses of a run
are over when its turns are. -/
def State.runEnd (st : State) : Option State := State.runEndIn st.bus.length { st with trace := [] }

/-- The run that starts at `st` is faulted: ERR = 1 or LOST = 1 at its end, whatever the host clears later (R186). -/
def State.runFaulted (st : State) : Bool := st.runEnd.any fun t => t.err || t.lost

/-- The run that starts at `st` is safe: it has an end and is not faulted there (R186). -/
def State.safeEnd (st : State) : Bool := st.runEnd.any fun t => !t.err && !t.lost

end Sys2Proof.Machine
end

