-- ==== Sys2Proof/Certificates/Slice0/Obligations.lean ====
section
/-! DEFINITION. The statements for the provers. Each says the whole next state where it says what a command does: what is not
named in the record update is the frame. Numbers are the spec's own; nothing here rests on a free value or on a log entry's choice
unless the docstring says so. -/

open Sys2Proof Sys2Proof.Machine

/-! ### The field commands (spec/40_field.md) -/

/-- R102: F[a] <- (F[b] + F[c]) mod q; no flag, no fault; the encoding. -/
def Obligations.FaddGivesSumModQ : Prop :=
  ∀ (a b c : FReg) (s : State),
    encode (.fadd a b c) = BitVec.ofNat 32 (0x01000000 + a.val * 2 ^ 20 + b.val * 2 ^ 16 + c.val * 2 ^ 12) ∧
    ∃ v : Fe, v.val = ((s.getF b).val + (s.getF c).val) % q ∧
      exec (.fadd a b c) s = .next { s with f := s.f.set a.val v, busy := false, done := true, latch := none }

/-- R103: F[a] <- (F[b] - F[c]) mod q, the remainder in [0, q). -/
def Obligations.FsubGivesDifferenceModQ : Prop :=
  ∀ (a b c : FReg) (s : State),
    encode (.fsub a b c) = BitVec.ofNat 32 (0x02000000 + a.val * 2 ^ 20 + b.val * 2 ^ 16 + c.val * 2 ^ 12) ∧
    ∃ v : Fe, (v.val : Int) = ((s.getF b).val - (s.getF c).val : Int) % (q : Int) ∧
      exec (.fsub a b c) s = .next { s with f := s.f.set a.val v, busy := false, done := true, latch := none }

/-- R104: F[a] <- (F[b] * F[c]) mod q, the ordinary residue. -/
def Obligations.FmulGivesOrdinaryResidue : Prop :=
  ∀ (a b c : FReg) (s : State),
    encode (.fmul a b c) = BitVec.ofNat 32 (0x03000000 + a.val * 2 ^ 20 + b.val * 2 ^ 16 + c.val * 2 ^ 12) ∧
    ∃ v : Fe, v.val = (s.getF b).val * (s.getF c).val % q ∧
      exec (.fmul a b c) s = .next { s with f := s.f.set a.val v, busy := false, done := true, latch := none }

/-- R105: F[a] <- (0 - F[b]) mod q; 0 negates to 0. -/
def Obligations.FnegGivesCanonicalNegative : Prop :=
  ∀ (a b : FReg) (s : State),
    encode (.fneg a b) = BitVec.ofNat 32 (0x04000000 + a.val * 2 ^ 20 + b.val * 2 ^ 16) ∧
    ∃ v : Fe, v.val = (if (s.getF b).val = 0 then 0 else q - (s.getF b).val) ∧
      exec (.fneg a b) s = .next { s with f := s.f.set a.val v, busy := false, done := true, latch := none }

/-- R106: FINV of a non-zero value gives v^(q-2) mod q, the unique inverse; FINV of 0 faults NONINV and changes nothing but
STATUS. -/
def Obligations.FinvGivesTheInverseOrFaults : Prop :=
  ∀ (a b : FReg) (s : State),
    encode (.finv a b) = BitVec.ofNat 32 (0x05000000 + a.val * 2 ^ 20 + b.val * 2 ^ 16) ∧
    ((s.getF b).val = 0 →
      exec (.finv a b) s = .next { s with err := true, ecode := 3#4, busy := false, done := true, latch := none }) ∧
    ((s.getF b).val ≠ 0 →
      ∃ c : Fe, c.val = (s.getF b).val ^ (q - 2) % q ∧ (s.getF b).val * c.val % q = 1 ∧
        (∀ c' : Fe, (s.getF b).val * c'.val % q = 1 → c' = c) ∧
        exec (.finv a b) s = .next { s with f := s.f.set a.val c, busy := false, done := true, latch := none })

/-- R107: F[a] <- F[b]^S[c] mod q for the exact 256-bit exponent, with v^0 = 1 for every v. -/
def Obligations.FpowGivesTheExactPower : Prop :=
  ∀ (a b : FReg) (c : SReg) (s : State),
    encode (.fpow a b c) = BitVec.ofNat 32 (0x06000000 + a.val * 2 ^ 20 + b.val * 2 ^ 16 + c.val * 2 ^ 12) ∧
    ∃ v : Fe, v.val = (s.getF b).val ^ (s.getS c).toNat % q ∧
      exec (.fpow a b c) s = .next { s with f := s.f.set a.val v, busy := false, done := true, latch := none }

/-- R108: FLAG <- F[b][0]. -/
def Obligations.FisnegGivesTheParity : Prop :=
  ∀ (b : FReg) (s : State),
    encode (.fisneg b) = BitVec.ofNat 32 (0x07000000 + b.val * 2 ^ 16) ∧
    exec (.fisneg b) s =
      .next { s with flag := decide ((s.getF b).val % 2 = 1), busy := false, done := true, latch := none }

/-- R109: FLAG <- (F[b] == F[c]). -/
def Obligations.FeqComparesCanonicalValues : Prop :=
  ∀ (b c : FReg) (s : State),
    encode (.feq b c) = BitVec.ofNat 32 (0x08000000 + b.val * 2 ^ 16 + c.val * 2 ^ 12) ∧
    exec (.feq b c) s =
      .next { s with flag := decide ((s.getF b).val = (s.getF c).val), busy := false, done := true, latch := none }

/-- R110: FLD of DBUF >= q faults NONCANON in strict mode; else F[a] is DBUF reduced mod q (DBUF itself below q). -/
def Obligations.FldRejectsOrReduces : Prop :=
  ∀ (a : FReg) (s : State),
    encode (.fld a) = BitVec.ofNat 32 (0x09000000 + a.val * 2 ^ 20) ∧
    (q ≤ s.dbuf.toNat ∧ s.strict = true →
      exec (.fld a) s = .next { s with err := true, ecode := 2#4, busy := false, done := true, latch := none }) ∧
    (¬ (q ≤ s.dbuf.toNat ∧ s.strict = true) →
      ∃ v : Fe, v.val = s.dbuf.toNat % q ∧
        exec (.fld a) s = .next { s with f := s.f.set a.val v, busy := false, done := true, latch := none })

/-- R111: DBUF <- F[b], bit 255 is 0, and the host sees LE(F[b]): byte i of the window's DBUF is (v >> 8i) mod 256. -/
def Obligations.FstGivesLittleEndianEncoding : Prop :=
  ∀ (b : FReg) (s : State),
    encode (.fst b) = BitVec.ofNat 32 (0x0A000000 + b.val * 2 ^ 16) ∧
    ∃ d : Wide, d.toNat = (s.getF b).val ∧ d.getLsbD 255 = false ∧
      exec (.fst b) s = .next { s with dbuf := d, busy := false, done := true, latch := none } ∧
      ∀ i : Nat, i < 32 →
        (State.windowByte { s with dbuf := d, busy := false, done := true, latch := none }
          (BitVec.ofNat 8 (0x40 + i))).toNat = (s.getF b).val / 256 ^ i % 256

/-- R112: F[a] <- [0, 1, d, I][sel]; a selector above 3 is ILLEGAL. -/
def Obligations.FconstLoadsTheSelectedConstant : Prop :=
  ∀ (a : FReg) (sel : BitVec 12) (s : State),
    encode (.fconst a sel) = BitVec.ofNat 32 (0x0B000000 + a.val * 2 ^ 20 + sel.toNat) ∧
    (sel.toNat ≤ 3 → ∃ v : Fe,
      v.val = (if sel.toNat = 0 then 0 else if sel.toNat = 1 then 1 else if sel.toNat = 2 then
        37095705934669439343138083508754565189542113879843219016388785533085940283555 else
        19681161376707505956807079304988542015446066515923890162744021073123829784752) ∧
      exec (.fconst a sel) s = .next { s with f := s.f.set a.val v, busy := false, done := true, latch := none }) ∧
    (3 < sel.toNat → (∃ e, decode (encode (.fconst a sel)) = .error e) ∧
      exec (.fconst a sel) s = .next { s with err := true, ecode := 1#4, busy := false, done := true, latch := none })

/-! ### The point commands (spec/41_point.md) -/

/-- R140, R141: P[a] is the sum by the unified formula, inv_q(v) being v^(q-2) mod q; for points of the curve neither denominator
is 0 mod q and the sum is on the curve. -/
def Obligations.PaddGivesTheUnifiedSum : Prop :=
  ∀ (a b c : PReg) (s : State) (x1 y1 x2 y2 t : Nat),
    x1 = (s.getP b).x.val → y1 = (s.getP b).y.val → x2 = (s.getP c).x.val → y2 = (s.getP c).y.val →
    t = curveD.val * x1 * x2 * y1 * y2 % q →
    encode (.padd a b c) = BitVec.ofNat 32 (0x10000000 + a.val * 2 ^ 20 + b.val * 2 ^ 16 + c.val * 2 ^ 12) ∧
    ∃ R : Point,
      R.x.val = (x1 * y2 + x2 * y1) * (((1 + t) % q) ^ (q - 2) % q) % q ∧
      R.y.val = (y1 * y2 + x1 * x2) * (((1 + (q - t)) % q) ^ (q - 2) % q) % q ∧
      exec (.padd a b c) s = .next { s with p := s.p.set a.val R, busy := false, done := true, latch := none } ∧
      (onCurve (s.getP b).x (s.getP b).y = true → onCurve (s.getP c).x (s.getP c).y = true →
        (1 + t) % q ≠ 0 ∧ (1 + (q - t)) % q ≠ 0 ∧ onCurve R.x R.y = true)

/-- R142: P[a] <- P[b] ⊕ P[b], the same result as PADD's. -/
def Obligations.PdblEqualsPaddWithItself : Prop :=
  ∀ (a b : PReg) (s : State),
    encode (.pdbl a b) = BitVec.ofNat 32 (0x11000000 + a.val * 2 ^ 20 + b.val * 2 ^ 16) ∧
    exec (.pdbl a b) s = .next { s with
      p := s.p.set a.val (Point.add (s.getP b) (s.getP b)), busy := false, done := true, latch := none } ∧
    exec (.pdbl a b) s = exec (.padd a b b) s

/-- R143: P[a] <- ((0 - x) mod q, y). -/
def Obligations.PnegNegatesTheXCoordinate : Prop :=
  ∀ (a b : PReg) (s : State),
    encode (.pneg a b) = BitVec.ofNat 32 (0x12000000 + a.val * 2 ^ 20 + b.val * 2 ^ 16) ∧
    ∃ x : Fe, x.val = (if (s.getP b).x.val = 0 then 0 else q - (s.getP b).x.val) ∧
      exec (.pneg a b) s = .next { s with
        p := s.p.set a.val ⟨x, (s.getP b).y⟩, busy := false, done := true, latch := none }

/-- R144: P[a] is the k-fold sum of P[b] for the exact k = S[c], every 256-bit k; [0]P = N. The premise is R23's invariant. -/
def Obligations.PsmulGivesTheKFoldSum : Prop :=
  ∀ (a b : PReg) (c : SReg) (s : State), onCurve (s.getP b).x (s.getP b).y = true →
    encode (.psmul a b c) = BitVec.ofNat 32 (0x13000000 + a.val * 2 ^ 20 + b.val * 2 ^ 16 + c.val * 2 ^ 12) ∧
    exec (.psmul a b c) s = .next { s with
      p := s.p.set a.val (Point.kFold (s.getP b) (s.getS c).toNat), busy := false, done := true, latch := none }

/-- R145: P[a] is the k-fold sum of B, and the same as PCONST Pt, B followed by PSMUL Pa, Pt, Sc. -/
def Obligations.PsmulbGivesTheKFoldSumOfB : Prop :=
  ∀ (a t : PReg) (c : SReg) (s : State),
    encode (.psmulb a c) = BitVec.ofNat 32 (0x14000000 + a.val * 2 ^ 20 + c.val * 2 ^ 12) ∧
    exec (.psmulb a c) s = .next { s with
      p := s.p.set a.val (Point.kFold basePoint (s.getS c).toNat), busy := false, done := true, latch := none } ∧
    ∃ u v : State, exec (.pconst t 1#12) s = .next u ∧ exec (.psmul a t c) u = .next v ∧
      v.getP a = Point.kFold basePoint (s.getS c).toNat

/-- R146: DBUF <- y + (x[0] << 255). -/
def Obligations.PencGivesCompressedEncoding : Prop :=
  ∀ (b : PReg) (s : State),
    encode (.penc b) = BitVec.ofNat 32 (0x15000000 + b.val * 2 ^ 16) ∧
    ∃ d : Wide, d.toNat = (s.getP b).y.val + ((s.getP b).x.val % 2) * 2 ^ 255 ∧
      exec (.penc b) s = .next { s with dbuf := d, busy := false, done := true, latch := none }

/-- R147: with y = DBUF[254:0], s = DBUF[255] and x2 = (y^2 - 1) / (d*y^2 + 1) mod q, whose denominator is never 0: DECODE where
y >= q in strict mode, where x2 has no root, and where x2 = 0 with s = 1 in strict mode; else P[a] is (0, y) for x2 = 0 and the
point with the one root of parity s otherwise, and it is on the curve. -/
def Obligations.PdecRecoversThePointOrFaults : Prop :=
  ∀ (a : PReg) (s : State) (y : Fe), y.val = s.dbuf.toNat % 2 ^ 255 % q →
    encode (.pdec a) = BitVec.ofNat 32 (0x16000000 + a.val * 2 ^ 20) ∧
    (curveD.val * y.val * y.val + 1) % q ≠ 0 ∧
    (q ≤ s.dbuf.toNat % 2 ^ 255 ∧ s.strict = true →
      exec (.pdec a) s = .next { s with err := true, ecode := 4#4, busy := false, done := true, latch := none }) ∧
    (¬ (q ≤ s.dbuf.toNat % 2 ^ 255 ∧ s.strict = true) →
      ∃ x2 : Fe, x2.val * (curveD.val * y.val * y.val + 1) % q = (y.val * y.val + (q - 1)) % q ∧
        ((∀ x : Fe, x.val * x.val % q ≠ x2.val) →
          exec (.pdec a) s = .next { s with err := true, ecode := 4#4, busy := false, done := true, latch := none }) ∧
        (x2.val = 0 → s.dbuf.getLsbD 255 = true ∧ s.strict = true →
          exec (.pdec a) s = .next { s with err := true, ecode := 4#4, busy := false, done := true, latch := none }) ∧
        (x2.val = 0 → ¬ (s.dbuf.getLsbD 255 = true ∧ s.strict = true) →
          ∃ x : Fe, x.val = 0 ∧ onCurve x y = true ∧
            exec (.pdec a) s = .next { s with
              p := s.p.set a.val ⟨x, y⟩, busy := false, done := true, latch := none }) ∧
        (x2.val ≠ 0 → (∃ x : Fe, x.val * x.val % q = x2.val) →
          ∃ x : Fe, x.val * x.val % q = x2.val ∧ decide (x.val % 2 = 1) = s.dbuf.getLsbD 255 ∧
            (∀ x' : Fe, x'.val * x'.val % q = x2.val → decide (x'.val % 2 = 1) = s.dbuf.getLsbD 255 → x' = x) ∧
            onCurve x y = true ∧
            exec (.pdec a) s = .next { s with
              p := s.p.set a.val ⟨x, y⟩, busy := false, done := true, latch := none }))

/-- R148: FLAG <- onCurve(F[b], F[c]), by the curve's equation over the integers mod q (R15). -/
def Obligations.PchkTestsTheCurveEquation : Prop :=
  ∀ (b c : FReg) (s : State) (x y : Int), x = (s.getF b).val → y = (s.getF c).val →
    encode (.pchk b c) = BitVec.ofNat 32 (0x17000000 + b.val * 2 ^ 16 + c.val * 2 ^ 12) ∧
    exec (.pchk b c) s = .next { s with
      flag := decide ((-x ^ 2 + y ^ 2 - 1 - (curveD.val : Int) * x ^ 2 * y ^ 2) % (q : Int) = 0),
      busy := false, done := true, latch := none }

/-- R149: PSET writes an on-curve pair and faults NOTONCURVE on any other. -/
def Obligations.PsetWritesOnlyCurvePoints : Prop :=
  ∀ (a : PReg) (b c : FReg) (s : State) (x y : Int), x = (s.getF b).val → y = (s.getF c).val →
    encode (.pset a b c) = BitVec.ofNat 32 (0x18000000 + a.val * 2 ^ 20 + b.val * 2 ^ 16 + c.val * 2 ^ 12) ∧
    ((-x ^ 2 + y ^ 2 - 1 - (curveD.val : Int) * x ^ 2 * y ^ 2) % (q : Int) = 0 →
      exec (.pset a b c) s = .next { s with
        p := s.p.set a.val ⟨s.getF b, s.getF c⟩, busy := false, done := true, latch := none }) ∧
    ((-x ^ 2 + y ^ 2 - 1 - (curveD.val : Int) * x ^ 2 * y ^ 2) % (q : Int) ≠ 0 →
      exec (.pset a b c) s = .next { s with err := true, ecode := 5#4, busy := false, done := true, latch := none })

/-- R150: F[a] <- P[b].x. -/
def Obligations.PgetxCopiesTheXCoordinate : Prop :=
  ∀ (a : FReg) (b : PReg) (s : State),
    encode (.pgetx a b) = BitVec.ofNat 32 (0x19000000 + a.val * 2 ^ 20 + b.val * 2 ^ 16) ∧
    exec (.pgetx a b) s = .next { s with
      f := s.f.set a.val (s.p[b.val]).x, busy := false, done := true, latch := none }

/-- R151: F[a] <- P[b].y. -/
def Obligations.PgetyCopiesTheYCoordinate : Prop :=
  ∀ (a : FReg) (b : PReg) (s : State),
    encode (.pgety a b) = BitVec.ofNat 32 (0x1A000000 + a.val * 2 ^ 20 + b.val * 2 ^ 16) ∧
    exec (.pgety a b) s = .next { s with
      f := s.f.set a.val (s.p[b.val]).y, busy := false, done := true, latch := none }

/-- R152: FLAG <- both affine coordinates are equal. -/
def Obligations.PeqComparesAffineCoordinates : Prop :=
  ∀ (b c : PReg) (s : State),
    encode (.peq b c) = BitVec.ofNat 32 (0x1B000000 + b.val * 2 ^ 16 + c.val * 2 ^ 12) ∧
    exec (.peq b c) s = .next { s with
      flag := decide ((s.p[b.val]).x.val = (s.p[c.val]).x.val ∧ (s.p[b.val]).y.val = (s.p[c.val]).y.val),
      busy := false, done := true, latch := none }

/-- R153: P[a] <- [N, B][sel]; a selector above 1 is ILLEGAL. -/
def Obligations.PconstLoadsTheSelectedPoint : Prop :=
  ∀ (a : PReg) (sel : BitVec 12) (s : State),
    encode (.pconst a sel) = BitVec.ofNat 32 (0x1C000000 + a.val * 2 ^ 20 + sel.toNat) ∧
    (sel.toNat ≤ 1 → ∃ R : Point,
      R.x.val = (if sel.toNat = 0 then 0 else
        15112221349535400772501151409588531511454012693041857206046113283949847762202) ∧
      R.y.val = (if sel.toNat = 0 then 1 else
        46316835694926478169428394003475163141307993866256225615783033603165251855960) ∧
      exec (.pconst a sel) s = .next { s with p := s.p.set a.val R, busy := false, done := true, latch := none }) ∧
    (1 < sel.toNat → (∃ e, decode (encode (.pconst a sel)) = .error e) ∧
      exec (.pconst a sel) s = .next { s with err := true, ecode := 1#4, busy := false, done := true, latch := none })

/-! ### The scalar commands and NOP (spec/42_scalar_control.md) -/

/-- R180: S[a] <- DBUF, all 256 bits, no range check. -/
def Obligations.SldLoadsAllBits : Prop :=
  ∀ (a : SReg) (s : State),
    encode (.sld a) = BitVec.ofNat 32 (0x20000000 + a.val * 2 ^ 20) ∧
    exec (.sld a) s = .next { s with s := s.s.set a.val s.dbuf, busy := false, done := true, latch := none }

/-- R181: DBUF <- S[b]; SLD then SST returns the 32 bytes unchanged. -/
def Obligations.SstStoresAllBits : Prop :=
  ∀ (b : SReg) (s : State),
    encode (.sst b) = BitVec.ofNat 32 (0x21000000 + b.val * 2 ^ 16) ∧
    exec (.sst b) s = .next { s with dbuf := s.s[b.val], busy := false, done := true, latch := none } ∧
    ∃ u v : State, exec (.sld b) s = .next u ∧ exec (.sst b) u = .next v ∧ v.dbuf = s.dbuf

/-- R182: NOP completes, sets DONE and changes nothing else; it is the word 0, any other word of op 0x00 is illegal, and it is
discarded like every command while ERR = 1. -/
def Obligations.NopOnlyCompletes : Prop :=
  ∀ s : State,
    encode .nop = 0x00000000#32 ∧ decode 0x00000000#32 = .ok .nop ∧
    exec .nop s = .next { s with busy := false, done := true, latch := none } ∧
    (∀ w : Word, opField w = 0x00#8 → w ≠ 0x00000000#32 → ∃ e, decode w = .error e) ∧
    (s.err = true → s.hostWrite 0x0C#8 4 0x00000000#32 = { s with lost := true })

/-! ### Encoding (spec/30_encoding.md) -/

/-- Decoding an encoded well-formed command gives it back, with every operand. -/
def Obligations.DecodeAfterEncodeGivesTheCommand : Prop :=
  ∀ i : Instr, wellFormed i = true → decode (encode i) = .ok i

/-- Every legal word is the encoding of the well-formed command it decodes to: no two words have one meaning. -/
def Obligations.EncodeAfterDecodeGivesTheWord : Prop :=
  ∀ (w : Word) (i : Instr), decode w = .ok i → wellFormed i = true ∧ encode i = w

/-- R88: every word decodes to exactly one row of the opcode map, the row of its command's mnemonic, or is illegal and matches
none. -/
def Obligations.DecodingAgreesWithTheOpcodeMap : Prop :=
  ∀ w : Word,
    (∃ i r, decode w = .ok i ∧ r ∈ opcodeTable ∧ r.mnemonic = i.mnemonic ∧ w &&& r.mask = r.value ∧
      ∀ r' ∈ opcodeTable, w &&& r'.mask = r'.value → r' = r) ∨
    (∃ e, decode w = .error e ∧ ∀ r ∈ opcodeTable, w &&& r.mask ≠ r.value)

/-- A few words written out from R85's patterns, and illegal ones of R86 (95_test_vectors.md section 2.4). -/
def Obligations.WrittenOutWordsDecode : Prop :=
  decode 0x01123000#32 = .ok (.fadd 1 2 3) ∧ decode 0x06120000#32 = .ok (.fpow 1 2 0) ∧
  decode 0x0B400003#32 = .ok (.fconst 4 3#12) ∧ decode 0x13121000#32 = .ok (.psmul 1 2 1) ∧
  decode 0x1B077000#32 = .ok (.peq 7 7) ∧ decode 0x20300000#32 = .ok (.sld 3) ∧
  decode 0x10823000#32 = .error .pointField ∧ decode 0x13124000#32 = .error .scalarField ∧
  decode 0x04123000#32 = .error .unusedField ∧ decode 0x01123001#32 = .error .immediate ∧
  decode 0xFF000000#32 = .error .opcode ∧ decode 0x0B400004#32 = .error .selector

/-! ### The step, completion and faults (spec/60_exceptions.md) -/

/-- The unit's turn on a legal word in LATCH is the command's meaning; the turn is the head of the turns to come, or the unit's own
when none is left. An idle unit's turn changes nothing but the turns to come. -/
def Obligations.StepRunsTheAcceptedCommand : Prop :=
  ∀ (s : State) (w : Word) (i : Instr) (rest : List Event),
    (s.busy = true → s.latch = some w → decode w = .ok i → s.bus = .unitTurn :: rest →
      step s = exec i { s with bus := rest }) ∧
    (s.busy = true → s.latch = some w → decode w = .ok i → s.bus = [] → step s = exec i s) ∧
    (s.busy = false → s.bus = .unitTurn :: rest → step s = .next { s with bus := rest }) ∧
    (s.busy = false → s.bus = [] → step s = .next s)

/-- R86: a word that matches no row of the opcode map is accepted, and its completion is Fault(ILLEGAL): no register file, no DBUF
and no FLAG is written. -/
def Obligations.IllegalWordCompletesWithFault : Prop :=
  ∀ (s : State) (w : Word) (rest : List Event), (∀ r ∈ opcodeTable, w &&& r.mask ≠ r.value) →
    (s.busy = false → s.err = false →
      s.hostWrite 0x0C#8 4 w = { s with latch := some w, cmdrb := w, busy := true }) ∧
    (s.busy = true → s.latch = some w → s.bus = .unitTurn :: rest →
      step s = .next { s with
        err := true, ecode := 1#4, busy := false, done := true, latch := none, bus := rest }) ∧
    (s.busy = true → s.latch = some w → s.bus = [] →
      step s = .next { s with err := true, ecode := 1#4, busy := false, done := true, latch := none })

/-- R201: every command completes, from every state: BUSY is cleared, DONE set and LATCH emptied, and no command touches CTRL, LOST,
the CMD read-back, the reset input or the turns. -/
def Obligations.EveryCommandCompletes : Prop :=
  ∀ (i : Instr) (s : State), ∃ t, exec i s = .next t ∧
    t.busy = false ∧ t.done = true ∧ t.latch = none ∧
    t.strict = s.strict ∧ t.irqEn = s.irqEn ∧ t.lost = s.lost ∧ t.cmdrb = s.cmdrb ∧
    t.resetPin = s.resetPin ∧ t.bus = s.bus ∧ t.trace = s.trace

/-- R202: a command that faults leaves every register file, DBUF and FLAG as they were, and records a code of 1 to 5. -/
def Obligations.FaultingCommandsWriteNothing : Prop :=
  ∀ (i : Instr) (s t : State), exec i s = .next t → s.err = false → t.err = true →
    ∃ c : BitVec 4, 1 ≤ c.toNat ∧ c.toNat ≤ 5 ∧
      t = { s with err := true, ecode := c, busy := false, done := true, latch := none }

/-- R35: FLAG is written by FISNEG, FEQ, PCHK and PEQ and by no other command. -/
def Obligations.OnlyPredicatesWriteFlag : Prop :=
  ∀ (i : Instr) (s t : State), exec i s = .next t → t.flag ≠ s.flag →
    (∃ b, i = .fisneg b) ∨ (∃ b c, i = .feq b c) ∨ (∃ b c, i = .pchk b c) ∨ (∃ b c, i = .peq b c)

/-- D48: STRICT reaches the result of FLD and PDEC alone. Any other command gives, from two states that differ only in STRICT, two
states that differ only in STRICT. -/
def Obligations.StrictReachesOnlyTheDecoders : Prop :=
  ∀ (i : Instr) (s t : State) (b : Bool), (∀ a, i ≠ .fld a) → (∀ a, i ≠ .pdec a) →
    exec i s = .next t → exec i { s with strict := b } = .next { t with strict := b }

/-! ### Invariants -/

/-- The state after reset meets the invariant. -/
def Obligations.ResetMeetsTheInvariant : Prop := State.reset.Inv

/-- R21, R23, R35, R39, R240: from every state that meets the invariant, a step gives a state that meets it: P registers stay on the
curve, ERR and ECODE agree, LATCH holds the read-back word exactly while BUSY, and a unit held in reset keeps its reset values. -/
def Obligations.EveryStepKeepsTheInvariant : Prop :=
  ∀ s t : State, s.Inv → step s = .next t → t.Inv

/-- From a state that meets the invariant a step answers a next state, except for a host access made while the reset input is
asserted: no fault of the machine is reached. -/
def Obligations.InvariantStatesAlwaysStep : Prop :=
  ∀ s : State, s.Inv →
    (∃ t, step s = .next t) ∨ (s.resetPin = true ∧ step s = .refused .hostAccessInReset)

/-! ### Reset (spec/70_reset_and_hazards.md) -/

/-- R38: every piece of state after reset, the words the host reads and the interrupt output. -/
def Obligations.ResetGivesEveryValue : Prop :=
  (∀ r : FReg, (State.reset.getF r).val = 0) ∧
  (∀ r : PReg, (State.reset.getP r).x.val = 0 ∧ (State.reset.getP r).y.val = 1) ∧
  (∀ r : SReg, (State.reset.getS r).toNat = 0) ∧
  State.reset.dbuf.toNat = 0 ∧ State.reset.latch = none ∧ State.reset.strict = true ∧ State.reset.irqEn = false ∧
  State.reset.busy = false ∧ State.reset.done = false ∧ State.reset.err = false ∧ State.reset.flag = false ∧
  State.reset.lost = false ∧ State.reset.ecode = 0#4 ∧ State.reset.cmdrb = 0#32 ∧
  State.reset.hostRead 0x00#8 4 = 0x25510107#32 ∧ State.reset.hostRead 0x04#8 4 = 0x00000001#32 ∧
  State.reset.hostRead 0x08#8 4 = 0x00000000#32 ∧ State.reset.irq = false

/-- R240: asserting or releasing the reset input gives every piece of the unit's state its reset value and discards a running
command; while it is asserted no turn of the unit changes the unit, and a host access has no step. -/
def Obligations.HardwareResetHoldsTheUnit : Prop :=
  ∀ (s : State) (rest : List Event),
    (s.bus = .resetAssert :: rest →
      step s = .next { State.reset with resetPin := true, bus := rest, trace := s.trace }) ∧
    (s.bus = .resetRelease :: rest →
      step s = .next { State.reset with resetPin := false, bus := rest, trace := s.trace }) ∧
    (s.Inv → s.resetPin = true → s.bus = .unitTurn :: rest → step s = .next { s with bus := rest }) ∧
    (∀ off size v, s.resetPin = true → s.bus = .write off size v :: rest → step s = .refused .hostAccessInReset) ∧
    (∀ off size, s.resetPin = true → s.bus = .read off size :: rest → step s = .refused .hostAccessInReset)

/-! ### The host's accesses (spec/10_state.md, 20_memory.md) -/

/-- R33: ID reads 0x25510107 at all times, and a write to it is ignored, without LOST. -/
def Obligations.IdReadsItsConstant : Prop :=
  ∀ (s : State) (size : Nat) (v : Word), s.hostRead 0x00#8 4 = 0x25510107#32 ∧ s.hostWrite 0x00#8 size v = s

/-- R34, R241: what CTRL reads and what a write to it does. A write with bit 31 = 1 resets the unit whatever BUSY is: every piece of
its state takes its reset value, CTRL too, and a running command is discarded. -/
def Obligations.CtrlReadsWritesAndSoftReset : Prop :=
  ∀ (s : State) (v : Word),
    (∀ k, (s.hostRead 0x04#8 4).getLsbD k = ((decide (k = 0) && s.strict) || (decide (k = 1) && s.irqEn))) ∧
    (v.getLsbD 31 = false → s.busy = true → s.hostWrite 0x04#8 4 v = { s with lost := true }) ∧
    (v.getLsbD 31 = false → s.busy = false →
      s.hostWrite 0x04#8 4 v = { s with strict := v.getLsbD 0, irqEn := v.getLsbD 1 }) ∧
    (v.getLsbD 31 = true →
      s.hostWrite 0x04#8 4 v = { State.reset with resetPin := s.resetPin, bus := s.bus, trace := s.trace })

/-- R35: the bits of STATUS, and what a write to it clears; it is never discarded and never sets LOST. -/
def Obligations.StatusBitsAndClearingWrites : Prop :=
  ∀ (s : State) (v : Word),
    (∀ k, (s.hostRead 0x08#8 4).getLsbD k =
      if k = 0 then s.busy else if k = 1 then s.done else if k = 2 then s.err else if k = 3 then s.flag
      else if k = 4 then s.lost else if 8 ≤ k ∧ k ≤ 11 then s.ecode.getLsbD (k - 8) else false) ∧
    s.hostWrite 0x08#8 4 v = { s with
      done := s.done && !v.getLsbD 1, err := s.err && !v.getLsbD 2,
      ecode := if v.getLsbD 2 then 0#4 else s.ecode, lost := s.lost && !v.getLsbD 4 }

/-- R203: while ERR = 1 or BUSY = 1 a write to CMD is discarded and sets LOST, and nothing else; otherwise it is accepted (R201).
CMD reads the last accepted word (R36). After a write to STATUS with bit 2 = 1 an idle unit accepts again (R208). -/
def Obligations.CmdWriteIsAcceptedOrDiscarded : Prop :=
  ∀ (s : State) (w : Word),
    (s.busy = true ∨ s.err = true → s.hostWrite 0x0C#8 4 w = { s with lost := true }) ∧
    (s.busy = false ∧ s.err = false →
      s.hostWrite 0x0C#8 4 w = { s with latch := some w, cmdrb := w, busy := true }) ∧
    s.hostRead 0x0C#8 4 = s.cmdrb ∧
    (∀ v : Word, s.busy = false → v.getLsbD 2 = true →
      (s.hostWrite 0x08#8 4 v).hostWrite 0x0C#8 4 w = { s with
        done := s.done && !v.getLsbD 1, err := false, ecode := 0#4, lost := s.lost && !v.getLsbD 4,
        latch := some w, cmdrb := w, busy := true })

/-- R250: while BUSY = 1 a write to a DBUF word, to CMD, or to CTRL with bit 31 = 0 sets LOST and nothing else, a write to STATUS
clears the bits it names, and a write to ID or a reserved offset changes nothing. -/
def Obligations.WritesWhileBusyAreDiscarded : Prop :=
  ∀ (s : State) (off : BitVec 8) (v : Word), s.busy = true → off.toNat % 4 = 0 →
    (off = 0x0C#8 ∨ (off = 0x04#8 ∧ v.getLsbD 31 = false) ∨ (0x40 ≤ off.toNat ∧ off.toNat ≤ 0x5C) →
      s.hostWrite off 4 v = { s with lost := true }) ∧
    (off = 0x08#8 → s.hostWrite off 4 v = { s with
      done := s.done && !v.getLsbD 1, err := s.err && !v.getLsbD 2,
      ecode := if v.getLsbD 2 then 0#4 else s.ecode, lost := s.lost && !v.getLsbD 4 }) ∧
    (off = 0x00#8 ∨ (0x10 ≤ off.toNat ∧ off.toNat ≤ 0x3C) ∨ 0x60 ≤ off.toNat → s.hostWrite off 4 v = s)

/-- R52: DBUFj is bits 32j+31 to 32j of DBUF, and byte i of the 32-byte string stands at offset 0x40 + i of the window; a write to
DBUFj while the unit is idle replaces its bits and nothing else. -/
def Obligations.DbufWordsAreLittleEndianSlices : Prop :=
  ∀ s : State,
    (∀ i, i < 32 → (s.windowByte (BitVec.ofNat 8 (0x40 + i))).toNat = s.dbuf.toNat / 256 ^ i % 256) ∧
    (∀ j, j < 8 → (s.hostRead (BitVec.ofNat 8 (0x40 + 4 * j)) 4).toNat = s.dbuf.toNat / 2 ^ (32 * j) % 2 ^ 32) ∧
    (∀ j (w : Word), j < 8 → s.busy = false → ∃ d : Wide,
      s.hostWrite (BitVec.ofNat 8 (0x40 + 4 * j)) 4 w = { s with dbuf := d } ∧
      ∀ n, n < 256 →
        d.getLsbD n = if 32 * j ≤ n ∧ n < 32 * j + 32 then w.getLsbD (n - 32 * j) else s.dbuf.getLsbD n)

/-- R37, R55: a reserved offset, and any access but 4 bytes at a multiple of 4, reads 0 and ignores a write, without LOST. -/
def Obligations.ReservedAndUnsupportedAccessesDoNothing : Prop :=
  ∀ (s : State) (off : BitVec 8) (size : Nat) (v : Word),
    size ≠ 4 ∨ off.toNat % 4 ≠ 0 ∨ (0x10 ≤ off.toNat ∧ off.toNat < 0x40) ∨ 0x60 ≤ off.toNat →
      s.hostRead off size = 0#32 ∧ s.hostWrite off size v = s

/-- R20, R56: a host's turn is one step, and it performs its access. A read changes nothing: its step adds what it returned to the
accesses made, and so two equal reads return the same. A write's step is `State.hostWrite`'s, whatever the register. The turns and
the record of accesses are the model's own (notes/assumptions/1.md, 13.md). -/
def Obligations.ReadsHaveNoSideEffects : Prop :=
  ∀ (s : State) (off : BitVec 8) (size : Nat) (v : Word) (rest : List Event), s.resetPin = false →
    (s.bus = .read off size :: rest →
      step s = .next { s with bus := rest, trace := .got off size (s.hostRead off size) :: s.trace }) ∧
    (s.bus = .read off size :: .read off size :: rest →
      core.run 2 s = .next { s with
        bus := rest, trace := .got off size (s.hostRead off size) :: .got off size (s.hostRead off size) :: s.trace }) ∧
    (s.bus = .write off size v :: rest →
      step s = .next { s.hostWrite off size v with bus := rest, trace := .wrote off size v :: s.trace })

/-- R207: irq = CTRL.IRQ_EN and STATUS.DONE; every completion raises it when enabled; clearing DONE or IRQ_EN drops it; masking does
not change DONE. On the host's lines it drives IRQ_LINE alone. -/
def Obligations.IrqFollowsDoneWhenEnabled : Prop :=
  ∀ (s : State) (v : Word) (n : Nat),
    (s.irq = true ↔ s.irqEn = true ∧ s.done = true) ∧
    (∀ i t, exec i s = .next t → t.irq = s.irqEn) ∧
    (v.getLsbD 1 = true → (s.hostWrite 0x08#8 4 v).irq = false) ∧
    (v.getLsbD 31 = false → v.getLsbD 1 = false → s.busy = false →
      (s.hostWrite 0x04#8 4 v).irq = false ∧ (s.hostWrite 0x04#8 4 v).done = s.done) ∧
    (s.drivesLine n = true ↔ n = Config.irqLine ∧ s.irq = true)

/-- R57, R63: while a command runs, no host access but a soft reset changes what it reads: the register files, DBUF, CTRL and the
word in LATCH. So the value of DBUF it reads is the value at acceptance. -/
def Obligations.RunningCommandSeesNoLaterWrite : Prop :=
  ∀ (s t : State) (e : Event) (rest : List Event), s.busy = true → s.bus = e :: rest →
    e ≠ .unitTurn → e ≠ .resetAssert → e ≠ .resetRelease →
    (∀ size v, e = .write 0x04#8 size v → v.getLsbD 31 = false) →
    step s = .next t →
      t.f = s.f ∧ t.p = s.p ∧ t.s = s.s ∧ t.dbuf = s.dbuf ∧ t.strict = s.strict ∧ t.irqEn = s.irqEn ∧
      t.latch = s.latch ∧ t.cmdrb = s.cmdrb ∧ t.busy = true ∧ t.flag = s.flag ∧ t.bus = rest

/-! ### Runs -/

/-- R201's fairness: where every step has a next state, a run through the turns to come and one step more leaves the unit idle with
no turn left. The premise is the invariant. R186: the end of a run, where it has one, is the FIRST state at which the host has issued
its last command and has seen BUSY = 0 since, the unit is idle there, and no reset came before it. That the unit has the turn where
none is left, that a run's turns and accesses are lists, and that any reset cuts a run short, is the model's choice
(notes/assumptions/1.md, 2.md, 13.md, 17.md). -/
def Obligations.EveryRunEndsIdle : Prop :=
  (∀ s t : State, s.Inv → core.run (s.bus.length + 1) s = .next t → t.busy = false ∧ t.bus = []) ∧
  (∀ s e : State, s.runEnd = some e → ∃ k, k ≤ s.bus.length ∧
    core.run k { s with trace := [] } = .next e ∧ e.runEnded = true ∧ e.busy = false ∧
    (∀ j < k, ∀ u : State, core.run j { s with trace := [] } = .next u → u.runEnded = false) ∧
    (s.bus.take k).any Event.resets = false ∧
    s.runFaulted = (e.err || e.lost) ∧ s.safeEnd = (!e.err && !e.lost))

/-- R185: a command issued by the protocol to an idle unit without an error is never lost, however many polls come before its
completion; the last poll reads BUSY = 0, and the state is the command's own result. Where no further command is to be issued that
state, but for the record of earlier accesses, is the end of the run from `s` (R186), and the run is faulted exactly where the command
faulted or an earlier write was lost, whatever the later turns do. The turns, their place as the latency, the record and the run's end
are the model's own form (notes/assumptions/1.md, 2.md, 13.md, 17.md). -/
def Obligations.IssueProtocolRunsTheCommand : Prop :=
  ∀ (s u : State) (i : Instr) (polls : Nat) (rest : List Event), wellFormed i = true →
    s.resetPin = false → s.busy = false → s.err = false → s.bus = issueTurns (encode i) polls ++ rest →
    exec i s = .next u →
    ∃ t, core.run (polls + 3) s = .next t ∧ t.bus = rest ∧ t.busy = false ∧ t.done = true ∧ t.latch = none ∧
      t.lost = s.lost ∧ t.cmdrb = encode i ∧ t.f = u.f ∧ t.p = u.p ∧ t.s = u.s ∧ t.dbuf = u.dbuf ∧ t.flag = u.flag ∧
      t.err = u.err ∧ t.ecode = u.ecode ∧ t.strict = s.strict ∧ t.irqEn = s.irqEn ∧
      (∃ v more, t.trace = .got 0x08#8 4 v :: more ∧ v.getLsbD 0 = false) ∧
      (rest.any Event.issues = false → (∃ tr, s.runEnd = some { t with trace := tr }) ∧
        s.runFaulted = (u.err || s.lost) ∧ s.safeEnd = (!u.err && !s.lost))

/-- R52, R185 steps 1 and 5: eight writes to an idle unit put a whole 256-bit value into DBUF and change nothing else, and eight reads,
at any time, return the words of DBUF in order and change nothing. -/
def Obligations.DbufTransfersCarryTheWholeValue : Prop :=
  ∀ (s : State) (v : Wide) (rest : List Event), s.resetPin = false →
    (s.busy = false → s.bus = fillTurns v ++ rest →
      ∃ tr, core.run 8 s = .next { s with dbuf := v, bus := rest, trace := tr }) ∧
    (s.bus = readBackTurns ++ rest →
      core.run 8 s = .next { s with
        bus := rest
        trace := ((List.range 8).map fun j =>
          Access.got (BitVec.ofNat 8 (0x40 + 4 * j)) 4 (BitVec.ofNat 32 (s.dbuf.toNat / 2 ^ (32 * j)))).reverse ++ s.trace })

/-- R91, row by row: FSQR squares; FMOV and PMOV copy, also in place; FDIV is the product with the inverse, and where F[c] = 0 its
first command faults NONINV, so that its second, if issued, is discarded; PSUB is the sum with the negative; FCLR clears. -/
def Obligations.PseudoInstructionsDoWhatTheirNamesSay : Prop :=
  ∀ s : State,
    (∀ a b : FReg, ∃ t, expand (.fsqr a b) = [.fmul a b b] ∧ exec (.fmul a b b) s = .next t ∧
      ∃ v : Fe, v.val = (s.getF b).val ^ 2 % q ∧ t.f = s.f.set a.val v) ∧
    (∀ a b : FReg, ∃ u t, expand (.fmov a b) = [.fneg a b, .fneg a a] ∧
      exec (.fneg a b) s = .next u ∧ exec (.fneg a a) u = .next t ∧ t.f = s.f.set a.val (s.getF b)) ∧
    (∀ a b : PReg, ∃ u t, expand (.pmov a b) = [.pneg a b, .pneg a a] ∧
      exec (.pneg a b) s = .next u ∧ exec (.pneg a a) u = .next t ∧ t.p = s.p.set a.val (s.getP b)) ∧
    (∀ a b c t : PReg, t ≠ b → ∃ u v, expand (.psub a b c t) = [.pneg t c, .padd a b t] ∧
      exec (.pneg t c) s = .next u ∧ exec (.padd a b t) u = .next v ∧
      v.getP a = Point.add (s.getP b) (Point.neg (s.getP c))) ∧
    (∀ a b c t : FReg, t ≠ b → (s.getF c).val ≠ 0 → ∃ u v, expand (.fdiv a b c t) = [.finv t c, .fmul a b t] ∧
      exec (.finv t c) s = .next u ∧ exec (.fmul a b t) u = .next v ∧
      (v.getF a).val * (s.getF c).val % q = (s.getF b).val) ∧
    (∀ a b c t : FReg, (s.getF c).val = 0 → ∃ u, expand (.fdiv a b c t) = [.finv t c, .fmul a b t] ∧
      exec (.finv t c) s = .next u ∧
      u = { s with err := true, ecode := 3#4, busy := false, done := true, latch := none } ∧
      u.hostWrite 0x0C#8 4 (encode (.fmul a b t)) = { u with lost := true }) ∧
    (∀ a : FReg, ∃ (t : State) (v : Fe), expand (.fclr a) = [.fconst a 0#12] ∧ exec (.fconst a 0#12) s = .next t ∧
      v.val = 0 ∧ t.f = s.f.set a.val v)

/-! ### The mathematics the commands rest on -/

/-- R9: q mod 8 = 5, -1 is a square, d is not, and d*y^2 + 1 is never 0 mod q. -/
def Obligations.FieldHasTheCompletenessCondition : Prop :=
  q % 8 = 5 ∧ q % 4 = 1 ∧ sqrtMinusOne.val * sqrtMinusOne.val % q = q - 1 ∧
  (∀ x : Fe, x.val * x.val % q ≠ curveD.val) ∧
  (∀ y : Fe, (curveD.val * (y.val * y.val) + 1) % q ≠ 0)

/-- R8: the constants are what their defining equations say. -/
def Obligations.ConstantsMeetTheirEquations : Prop :=
  q = 2 ^ 255 - 19 ∧ curveD.val * 121666 % q = q - 121665 ∧ sqrtMinusOne.val = 2 ^ ((q - 1) / 4) % q ∧
  basePoint.y.val * 5 % q = 4 ∧ basePoint.x.val % 2 = 0 ∧ onCurve basePoint.x basePoint.y = true ∧
  orderL = 2 ^ 252 + 27742317777372353535851937790883648493

/-- ED §4.2, R140, R141: on the points of the curve the sum PADD computes is a commutative group's, with neutral N and inverse ⊖. -/
def Obligations.PointSumIsAGroupLaw : Prop :=
  ∀ P Q R : Point, onCurve P.x P.y = true → onCurve Q.x Q.y = true → onCurve R.x R.y = true →
    onCurve (Point.add P Q).x (Point.add P Q).y = true ∧
    Point.add (Point.add P Q) R = Point.add P (Point.add Q R) ∧
    Point.add P Q = Point.add Q P ∧ Point.add P neutral = P ∧ Point.add P (Point.neg P) = neutral

/-- ED §8 (95_test_vectors.md section 1.2; R111): FST then FLD returns the value, and PENC then PDEC returns a point of the curve, in
both modes and without a fault. -/
def Obligations.EncodingsRoundTripInBothModes : Prop :=
  (∀ (a b : FReg) (s : State), ∃ u t, exec (.fst b) s = .next u ∧ exec (.fld a) u = .next t ∧
    t.f = s.f.set a.val (s.getF b) ∧ t.err = s.err ∧ t.ecode = s.ecode) ∧
  (∀ (a b : PReg) (s : State), onCurve (s.getP b).x (s.getP b).y = true →
    ∃ u t, exec (.penc b) s = .next u ∧ exec (.pdec a) u = .next t ∧
      t.p = s.p.set a.val (s.getP b) ∧ t.err = s.err ∧ t.ecode = s.ecode)
end

