-- ==== Sys2Proof/Laws/DecodeLaws.lean ====
section
/-! SUPPORT. The fields of a word built from fields are those fields (spec/30_encoding.md R80), and back. -/

namespace Sys2Proof

section
variable (op : BitVec 8) (a b c : BitVec 4) (imm : BitVec 12)

@[simp] theorem opField_commandWord : opField (commandWord op a b c imm) = op := by
  apply BitVec.eq_of_getLsbD_eq
  intro k hk
  simp only [opField, commandWord, BitVec.getLsbD_extractLsb', BitVec.getLsbD_append, hk, decide_true, Bool.true_and]
  split_ifs <;> first | omega | (congr 1; omega)

@[simp] theorem aField_commandWord : aField (commandWord op a b c imm) = a := by
  apply BitVec.eq_of_getLsbD_eq
  intro k hk
  simp only [aField, commandWord, BitVec.getLsbD_extractLsb', BitVec.getLsbD_append, hk, decide_true, Bool.true_and]
  split_ifs <;> first | omega | (congr 1; omega)

@[simp] theorem bField_commandWord : bField (commandWord op a b c imm) = b := by
  apply BitVec.eq_of_getLsbD_eq
  intro k hk
  simp only [bField, commandWord, BitVec.getLsbD_extractLsb', BitVec.getLsbD_append, hk, decide_true, Bool.true_and]
  split_ifs <;> first | omega | (congr 1; omega)

@[simp] theorem cField_commandWord : cField (commandWord op a b c imm) = c := by
  apply BitVec.eq_of_getLsbD_eq
  intro k hk
  simp only [cField, commandWord, BitVec.getLsbD_extractLsb', BitVec.getLsbD_append, hk, decide_true, Bool.true_and]
  split_ifs <;> first | omega | (congr 1; omega)

@[simp] theorem immField_commandWord : immField (commandWord op a b c imm) = imm := by
  apply BitVec.eq_of_getLsbD_eq
  intro k hk
  simp only [immField, commandWord, BitVec.getLsbD_extractLsb', BitVec.getLsbD_append, hk, decide_true, Bool.true_and]
  split_ifs <;> first | omega | (congr 1; omega)
end

/-- A word is the word of its fields. -/
theorem commandWord_fields (w : Word) :
    commandWord (opField w) (aField w) (bField w) (cField w) (immField w) = w := by
  apply BitVec.eq_of_getLsbD_eq
  intro k hk
  simp only [opField, aField, bField, cField, immField, commandWord, BitVec.getLsbD_extractLsb', BitVec.getLsbD_append]
  split_ifs <;> (rw [decide_eq_true (by omega), Bool.true_and]; congr 1; omega)

/-- A mask acts on each field by itself. -/
theorem commandWord_and (op op' : BitVec 8) (a a' b b' c c' : BitVec 4) (imm imm' : BitVec 12) :
    commandWord op a b c imm &&& commandWord op' a' b' c' imm'
      = commandWord (op &&& op') (a &&& a') (b &&& b') (c &&& c') (imm &&& imm') := by
  apply BitVec.eq_of_getLsbD_eq
  intro k hk
  simp only [commandWord, BitVec.getLsbD_and, BitVec.getLsbD_append]
  split_ifs <;> rfl

theorem commandWord_inj {op op' : BitVec 8} {a a' b b' c c' : BitVec 4} {imm imm' : BitVec 12} :
    commandWord op a b c imm = commandWord op' a' b' c' imm' ↔
      op = op' ∧ a = a' ∧ b = b' ∧ c = c' ∧ imm = imm' := by
  constructor
  · intro h
    exact ⟨by simpa using congrArg opField h, by simpa using congrArg aField h, by simpa using congrArg bField h,
      by simpa using congrArg cField h, by simpa using congrArg immField h⟩
  · rintro ⟨rfl, rfl, rfl, rfl, rfl⟩; rfl

/-- A row whose mask and value are written by fields matches a word field by field. -/
theorem matchesWord_iff (n : String) (op mop : BitVec 8) (va ma vb mb vc mc : BitVec 4) (vi mi : BitVec 12) (w : Word) :
    (OpRow.mk n (commandWord op va vb vc vi) (commandWord mop ma mb mc mi)).matchesWord w = true ↔
      opField w &&& mop = op ∧ aField w &&& ma = va ∧ bField w &&& mb = vb ∧ cField w &&& mc = vc ∧ immField w &&& mi = vi := by
  rw [OpRow.matchesWord, beq_iff_eq]
  conv_lhs => rw [← commandWord_fields w]
  rw [commandWord_and, commandWord_inj]

/-! ### Reading a register field back (R83) -/

@[simp] theorem readF_regField (r : FReg) : readF (regField r) = .ok r := by revert r; decide
@[simp] theorem readP_regField (r : PReg) : readP (regField r) = .ok r := by revert r; decide
@[simp] theorem readS_regField (r : SReg) : readS (regField r) = .ok r := by revert r; decide

theorem toNat_regField_F (r : FReg) : (regField r).toNat = r.val := by revert r; decide
theorem toNat_regField_P (r : PReg) : (regField r).toNat = r.val := by revert r; decide
theorem toNat_regField_S (r : SReg) : (regField r).toNat = r.val := by revert r; decide

theorem readF_eq_ok_iff (x : BitVec 4) (r : FReg) : readF x = .ok r ↔ x = regField r := by revert x r; decide
theorem readP_eq_ok_iff (x : BitVec 4) (r : PReg) : readP x = .ok r ↔ x = regField r := by revert x r; decide
theorem readS_eq_ok_iff (x : BitVec 4) (r : SReg) : readS x = .ok r ↔ x = regField r := by revert x r; decide
theorem readUnused_eq_ok_iff (x : BitVec 4) (u : Unit) : readUnused x = .ok u ↔ x = 0#4 := by
  unfold readUnused; split <;> simp [*]
theorem readNoImm_eq_ok_iff (x : BitVec 12) (u : Unit) : readNoImm x = .ok u ↔ x = 0#12 := by
  unfold readNoImm; split <;> simp [*]
theorem readSel_eq_ok_iff (most : Nat) (x sel : BitVec 12) : readSel most x = .ok sel ↔ x = sel ∧ sel.toNat ≤ most := by
  unfold readSel
  split
  · constructor
    · intro h; cases h; exact ⟨rfl, by assumption⟩
    · rintro ⟨rfl, -⟩; rfl
  · constructor
    · intro h; cases h
    · rintro ⟨rfl, h⟩; contradiction

/-- A reading step of a format succeeds when it and the rest do. -/
theorem bind_eq_ok_iff {α β : Type} (x : Except IllegalWord α) (k : α → Except IllegalWord β) (b : β) :
    (x >>= k) = .ok b ↔ ∃ a, x = .ok a ∧ k a = .ok b := by
  cases x with
  | ok a => exact ⟨fun h => ⟨a, rfl, h⟩, by rintro ⟨a', h, h'⟩; cases h; exact h'⟩
  | error e => exact ⟨fun h => (by cases h), by rintro ⟨a', h, -⟩; cases h⟩

/-! ### Everything each format can answer (R82) -/

section
variable {α β γ : Type} (ra : BitVec 4 → Except IllegalWord α) (rb : BitVec 4 → Except IllegalWord β)
  (rc : BitVec 4 → Except IllegalWord γ) (w : Word) (i : Instr)

theorem formatN_eq_ok_iff (j : Instr) : formatN j w = .ok i ↔
    aField w = 0#4 ∧ bField w = 0#4 ∧ cField w = 0#4 ∧ immField w = 0#12 ∧ j = i := by
  simp [formatN, bind_eq_ok_iff, readUnused_eq_ok_iff, readNoImm_eq_ok_iff, pure, Except.pure]

theorem formatRRR_eq_ok_iff (k : α → β → γ → Instr) : formatRRR ra rb rc k w = .ok i ↔
    ∃ a b c, ra (aField w) = .ok a ∧ rb (bField w) = .ok b ∧ rc (cField w) = .ok c ∧ immField w = 0#12 ∧ k a b c = i := by
  simp only [formatRRR, bind_eq_ok_iff, readNoImm_eq_ok_iff, pure, Except.pure, Except.ok.injEq]
  constructor
  · rintro ⟨a, ha, b, hb, c, hc, -, hi, h⟩; exact ⟨a, b, c, ha, hb, hc, hi, h⟩
  · rintro ⟨a, b, c, ha, hb, hc, hi, h⟩; exact ⟨a, ha, b, hb, c, hc, (), hi, h⟩

theorem formatRR_eq_ok_iff (k : α → β → Instr) : formatRR ra rb k w = .ok i ↔
    ∃ a b, ra (aField w) = .ok a ∧ rb (bField w) = .ok b ∧ cField w = 0#4 ∧ immField w = 0#12 ∧ k a b = i := by
  simp only [formatRR, bind_eq_ok_iff, readUnused_eq_ok_iff, readNoImm_eq_ok_iff, pure, Except.pure, Except.ok.injEq]
  constructor
  · rintro ⟨a, ha, b, hb, -, hc, -, hi, h⟩; exact ⟨a, b, ha, hb, hc, hi, h⟩
  · rintro ⟨a, b, ha, hb, hc, hi, h⟩; exact ⟨a, ha, b, hb, (), hc, (), hi, h⟩

theorem formatRC_eq_ok_iff (k : α → γ → Instr) : formatRC ra rc k w = .ok i ↔
    ∃ a c, ra (aField w) = .ok a ∧ bField w = 0#4 ∧ rc (cField w) = .ok c ∧ immField w = 0#12 ∧ k a c = i := by
  simp only [formatRC, bind_eq_ok_iff, readUnused_eq_ok_iff, readNoImm_eq_ok_iff, pure, Except.pure, Except.ok.injEq]
  constructor
  · rintro ⟨a, ha, -, hb, c, hc, -, hi, h⟩; exact ⟨a, c, ha, hb, hc, hi, h⟩
  · rintro ⟨a, c, ha, hb, hc, hi, h⟩; exact ⟨a, ha, (), hb, c, hc, (), hi, h⟩

theorem formatD_eq_ok_iff (k : α → Instr) : formatD ra k w = .ok i ↔
    ∃ a, ra (aField w) = .ok a ∧ bField w = 0#4 ∧ cField w = 0#4 ∧ immField w = 0#12 ∧ k a = i := by
  simp only [formatD, bind_eq_ok_iff, readUnused_eq_ok_iff, readNoImm_eq_ok_iff, pure, Except.pure, Except.ok.injEq]
  constructor
  · rintro ⟨a, ha, -, hb, -, hc, -, hi, h⟩; exact ⟨a, ha, hb, hc, hi, h⟩
  · rintro ⟨a, ha, hb, hc, hi, h⟩; exact ⟨a, ha, (), hb, (), hc, (), hi, h⟩

theorem formatS1_eq_ok_iff (k : β → Instr) : formatS1 rb k w = .ok i ↔
    ∃ b, aField w = 0#4 ∧ rb (bField w) = .ok b ∧ cField w = 0#4 ∧ immField w = 0#12 ∧ k b = i := by
  simp only [formatS1, bind_eq_ok_iff, readUnused_eq_ok_iff, readNoImm_eq_ok_iff, pure, Except.pure, Except.ok.injEq]
  constructor
  · rintro ⟨-, ha, b, hb, -, hc, -, hi, h⟩; exact ⟨b, ha, hb, hc, hi, h⟩
  · rintro ⟨b, ha, hb, hc, hi, h⟩; exact ⟨(), ha, b, hb, (), hc, (), hi, h⟩

theorem formatS2_eq_ok_iff (k : β → γ → Instr) : formatS2 rb rc k w = .ok i ↔
    ∃ b c, aField w = 0#4 ∧ rb (bField w) = .ok b ∧ rc (cField w) = .ok c ∧ immField w = 0#12 ∧ k b c = i := by
  simp only [formatS2, bind_eq_ok_iff, readUnused_eq_ok_iff, readNoImm_eq_ok_iff, pure, Except.pure, Except.ok.injEq]
  constructor
  · rintro ⟨-, ha, b, hb, c, hc, -, hi, h⟩; exact ⟨b, c, ha, hb, hc, hi, h⟩
  · rintro ⟨b, c, ha, hb, hc, hi, h⟩; exact ⟨(), ha, b, hb, c, hc, (), hi, h⟩

theorem formatI_eq_ok_iff (most : Nat) (k : α → BitVec 12 → Instr) : formatI ra most k w = .ok i ↔
    ∃ a, ra (aField w) = .ok a ∧ bField w = 0#4 ∧ cField w = 0#4 ∧ (immField w).toNat ≤ most ∧ k a (immField w) = i := by
  simp only [formatI, bind_eq_ok_iff, readUnused_eq_ok_iff, readSel_eq_ok_iff, pure, Except.pure, Except.ok.injEq]
  constructor
  · rintro ⟨a, ha, -, hb, -, hc, sel, ⟨rfl, hm⟩, h⟩; exact ⟨a, ha, hb, hc, hm, h⟩
  · rintro ⟨a, ha, hb, hc, hm, h⟩; exact ⟨a, ha, (), hb, (), hc, _, ⟨rfl, hm⟩, h⟩
end

/-- The word of its fields as a number (R80). -/
theorem commandWord_eq_ofNat (op : BitVec 8) (a b c : BitVec 4) (imm : BitVec 12) :
    commandWord op a b c imm = BitVec.ofNat 32
      (op.toNat * 2 ^ 24 + a.toNat * 2 ^ 20 + b.toNat * 2 ^ 16 + c.toNat * 2 ^ 12 + imm.toNat) := by
  apply BitVec.eq_of_toNat_eq
  have := op.isLt
  have := a.isLt
  have := b.isLt
  have := c.isLt
  have := imm.isLt
  simp only [commandWord, BitVec.toNat_append, BitVec.toNat_ofNat]
  rw [← Nat.shiftLeft_add_eq_or_of_lt a.isLt, ← Nat.shiftLeft_add_eq_or_of_lt b.isLt,
    ← Nat.shiftLeft_add_eq_or_of_lt c.isLt, ← Nat.shiftLeft_add_eq_or_of_lt imm.isLt]
  simp only [Nat.shiftLeft_eq]
  omega

end Sys2Proof
end

