-- ==== Sys2Proof/Laws/Prime.lean ====
section
/-! SUPPORT. Square-and-multiply computes the power, and q is prime: Pratt's certificate, each part checked by the kernel. -/

namespace Sys2Proof

theorem powMod_eq (m b : Nat) (hm : 1 < m) : ∀ fuel k, k < 2 ^ fuel → powMod m b fuel k = b ^ k % m := by
  intro fuel
  induction fuel with
  | zero =>
    intro k hk
    have : k = 0 := by simpa using hk
    subst this
    simp [powMod, Nat.mod_eq_of_lt hm]
  | succ fuel ih =>
    intro k hk
    have hk2 : k / 2 < 2 ^ fuel := by rw [pow_succ] at hk; omega
    have hsq : b ^ (k / 2) * b ^ (k / 2) = b ^ (2 * (k / 2)) := by rw [two_mul, pow_add]
    by_cases hk0 : k = 0
    · subst hk0; simp [powMod, Nat.mod_eq_of_lt hm]
    · by_cases hodd : k % 2 = 1
      · have hk1 : k = 2 * (k / 2) + 1 := by omega
        simp only [powMod, hk0, hodd, if_true, if_false, ih _ hk2]
        conv_rhs => rw [hk1, pow_succ, ← hsq]
        simp [Nat.mul_mod]
      · have hk1 : k = 2 * (k / 2) := by omega
        simp only [powMod, hk0, hodd, if_false, ih _ hk2]
        conv_rhs => rw [hk1, ← hsq]
        simp [Nat.mul_mod]

/-- Pratt: a base of order p - 1 makes p prime, given the prime factors of p - 1. -/
theorem prime_of_pratt (p a : Nat) (fs : List Nat) (hp : 1 < p) (hlt : p < 2 ^ 256) (hprod : fs.prod = p - 1)
    (hfs : ∀ r ∈ fs, r.Prime) (h1 : powMod p a 256 (p - 1) = 1) (h2 : ∀ r ∈ fs, powMod p a 256 ((p - 1) / r) ≠ 1) :
    p.Prime := by
  have hcast : ∀ k, k ≤ p - 1 → ((a : ZMod p) ^ k = 1 ↔ powMod p a 256 k = 1) := by
    intro k hk
    rw [powMod_eq p a hp 256 k (by omega)]
    have h := ZMod.natCast_eq_natCast_iff (a ^ k) 1 p
    rw [Nat.cast_pow, Nat.cast_one, Nat.ModEq, Nat.mod_eq_of_lt hp] at h
    exact h
  refine lucas_primality p (a : ZMod p) ((hcast _ le_rfl).2 h1) fun r hr hd => ?_
  rw [← hprod, hr.prime.dvd_prod_iff] at hd
  obtain ⟨s, hs, hrs⟩ := hd
  rw [(Nat.prime_dvd_prime_iff_eq hr (hfs s hs)).1 hrs]
  exact fun h => h2 s hs ((hcast _ (Nat.div_le_self _ _)).1 h)

theorem prime_2773320623 : Nat.Prime 2773320623 :=
  prime_of_pratt _ 5 [569003, 2437, 2] (by decide) (by decide) (by norm_num)
    (by simp only [List.forall_mem_cons, List.not_mem_nil]; norm_num) (by decide +kernel) (by decide +kernel)
theorem prime_72106336199 : Nat.Prime 72106336199 :=
  prime_of_pratt _ 7 [2773320623, 13, 2] (by decide) (by decide) (by norm_num)
    (by simp only [List.forall_mem_cons, List.not_mem_nil]; exact ⟨prime_2773320623, by norm_num⟩)
    (by decide +kernel) (by decide +kernel)
theorem prime_1919519569386763 : Nat.Prime 1919519569386763 :=
  prime_of_pratt _ 2 [8574133, 127, 47, 47, 19, 7, 3, 2] (by decide) (by decide) (by norm_num)
    (by simp only [List.forall_mem_cons, List.not_mem_nil]; norm_num) (by decide +kernel) (by decide +kernel)
theorem prime_31757755568855353 : Nat.Prime 31757755568855353 :=
  prime_of_pratt _ 10 [430751, 4153, 223, 107, 31, 3, 2, 2, 2] (by decide) (by decide) (by norm_num)
    (by simp only [List.forall_mem_cons, List.not_mem_nil]; norm_num) (by decide +kernel) (by decide +kernel)
theorem prime_75445702479781427272750846543864801 : Nat.Prime 75445702479781427272750846543864801 :=
  prime_of_pratt _ 7 [72106336199, 1919519569386763, 75707, 5, 5, 3, 3, 2, 2, 2, 2, 2] (by decide) (by decide) (by norm_num)
    (by
      simp only [List.forall_mem_cons, List.not_mem_nil]
      exact ⟨prime_72106336199, prime_1919519569386763, by norm_num⟩)
    (by decide +kernel) (by decide +kernel)
theorem prime_factor_of_q :
    Nat.Prime 74058212732561358302231226437062788676166966415465897661863160754340907 :=
  prime_of_pratt _ 2
    [132049, 1923133, 75445702479781427272750846543864801, 31757755568855353, 57467, 353, 3, 2] (by decide) (by decide)
    (by norm_num)
    (by
      simp only [List.forall_mem_cons, List.not_mem_nil]
      exact ⟨by norm_num, by norm_num, prime_75445702479781427272750846543864801, prime_31757755568855353, by norm_num⟩)
    (by decide +kernel) (by decide +kernel)

/-- q = 2^255 - 19 is prime. -/
theorem q_prime : Nat.Prime q :=
  prime_of_pratt q 2 [74058212732561358302231226437062788676166966415465897661863160754340907, 65147, 3, 2, 2]
    (by decide) (by decide) (by norm_num [q])
    (by
      simp only [List.forall_mem_cons, List.not_mem_nil]
      exact ⟨prime_factor_of_q, by norm_num⟩)
    (by decide +kernel) (by decide +kernel)

end Sys2Proof
end

