-- ==== Sys2Proof/Laws/Edwards.lean ====
section
/-! SUPPORT. The group law of the curve -x^2 + y^2 = 1 + d*x^2*y^2 over a field in which -1 is a square and d is not: the
denominators of the formula of spec/41_point.md R140 never vanish, the sum is on the curve, and the law is associative. -/

namespace Sys2Proof.Edwards

variable {F : Type} [Field F]

/-- The curve's equation. -/
def On {R : Type} [CommRing R] (d x y : R) : Prop := -x ^ 2 + y ^ 2 = 1 + d * x ^ 2 * y ^ 2

/-- x3 of R140. -/
def sumX (d x1 y1 x2 y2 : F) : F := (x1 * y2 + x2 * y1) / (1 + d * x1 * x2 * y1 * y2)

/-- y3 of R140. -/
def sumY (d x1 y1 x2 y2 : F) : F := (y1 * y2 + x1 * x2) / (1 - d * x1 * x2 * y1 * y2)

variable {d i x1 y1 x2 y2 x3 y3 : F}

/-- If (i*u + e*v)^2 = d*(x1*y1)^2*w^2 with w and x1*y1 not zero, d is a square. -/
theorem isSquare_of_sq_eq {a b c : F} (h : a ^ 2 = d * b ^ 2 * c ^ 2) (hb : b ≠ 0) (hc : c ≠ 0) : IsSquare d :=
  ⟨a / (b * c), by field_simp; linear_combination -h⟩

/-- Completeness: t = d*x1*x2*y1*y2 never squares to 1 on the curve (Bernstein and Lange's argument). -/
theorem t_sq_ne_one (hi : i ^ 2 = -1) (hd : ¬ IsSquare d) (h2 : (2 : F) ≠ 0) (h1 : On d x1 y1) (hQ : On d x2 y2) :
    (d * x1 * x2 * y1 * y2) ^ 2 ≠ 1 := by
  intro ht
  unfold On at h1 hQ
  have hne : d * x1 * x2 * y1 * y2 ≠ 0 := fun h => by simp [h] at ht
  have hx1 : x1 ≠ 0 := by rintro rfl; simp at hne
  have hy1 : y1 ≠ 0 := by rintro rfl; simp at hne
  have hy2 : y2 ≠ 0 := by rintro rfl; simp at hne
  have hb : x1 * y1 ≠ 0 := mul_ne_zero hx1 hy1
  have key : ∀ s : F, s ^ 2 = 1 →
      (i * x1 + s * (d * x1 * x2 * y1 * y2) * y1) ^ 2 = d * (x1 * y1) ^ 2 * (i * x2 + s * y2) ^ 2 := by
    intro s hs
    linear_combination h1 - d * (x1 * y1) ^ 2 * hQ + (x1 ^ 2 - d * (x1 * y1) ^ 2 * x2 ^ 2) * hi
      + (y1 ^ 2 * (d * x1 * x2 * y1 * y2) ^ 2 - d * (x1 * y1) ^ 2 * y2 ^ 2) * hs + (y1 ^ 2 - 1) * ht
  have hp := key 1 (by ring)
  have hm := key (-1) (by ring)
  by_cases hzp : i * x2 + 1 * y2 = 0
  · by_cases hzm : i * x2 + -1 * y2 = 0
    · have : (2 : F) * y2 = 0 := by linear_combination hzp - hzm
      exact (mul_ne_zero h2 hy2) this
    · exact hd (isSquare_of_sq_eq hm hb hzm)
  · exact hd (isSquare_of_sq_eq hp hb hzp)

theorem one_add_ne_zero (hi : i ^ 2 = -1) (hd : ¬ IsSquare d) (h2 : (2 : F) ≠ 0) (h1 : On d x1 y1) (hQ : On d x2 y2) :
    1 + d * x1 * x2 * y1 * y2 ≠ 0 := fun h =>
  t_sq_ne_one hi hd h2 h1 hQ (by linear_combination (d * x1 * x2 * y1 * y2 - 1) * h)

theorem one_sub_ne_zero (hi : i ^ 2 = -1) (hd : ¬ IsSquare d) (h2 : (2 : F) ≠ 0) (h1 : On d x1 y1) (hQ : On d x2 y2) :
    1 - d * x1 * x2 * y1 * y2 ≠ 0 := fun h =>
  t_sq_ne_one hi hd h2 h1 hQ (by linear_combination -(d * x1 * x2 * y1 * y2 + 1) * h)

/-- A pair of fractions is on the curve when the equation holds with its denominators cleared. -/
theorem on_of_fraction {n m a b : F} (ha : a ≠ 0) (hb : b ≠ 0)
    (h : -n ^ 2 * b ^ 2 + m ^ 2 * a ^ 2 = a ^ 2 * b ^ 2 + d * n ^ 2 * m ^ 2) : On d (n / a) (m / b) := by
  unfold On
  field_simp
  linear_combination h

/-- The sum of two points of the curve is on the curve. -/
theorem on_sum (hi : i ^ 2 = -1) (hd : ¬ IsSquare d) (h2 : (2 : F) ≠ 0) (h1 : On d x1 y1) (hQ : On d x2 y2) :
    On d (sumX d x1 y1 x2 y2) (sumY d x1 y1 x2 y2) := by
  have ha := one_add_ne_zero hi hd h2 h1 hQ
  have hb := one_sub_ne_zero hi hd h2 h1 hQ
  unfold On at h1 hQ
  have key : -(x1 * y2 + x2 * y1) ^ 2 * (1 - d * x1 * x2 * y1 * y2) ^ 2
      + (y1 * y2 + x1 * x2) ^ 2 * (1 + d * x1 * x2 * y1 * y2) ^ 2
      = (1 + d * x1 * x2 * y1 * y2) ^ 2 * (1 - d * x1 * x2 * y1 * y2) ^ 2
      + d * (x1 * y2 + x2 * y1) ^ 2 * (y1 * y2 + x1 * x2) ^ 2 := by
    linear_combination
      (x1^2*y1^2*x2^4*y2^4*d^3 - x1^2*x2^4*y2^4*d^2 - x1^2*x2^4*y2^2*d + x1^2*x2^2*y2^4*d + y1^2*x2^4*y2^4*d^2
       + y1^2*x2^4*y2^2*d - y1^2*x2^2*y2^4*d - x2^4*y2^4*d^2 - 2*x2^4*y2^4*d - 2*x2^4*y2^2 + x2^4 + 2*x2^2*y2^4
       - 2*x2^2*y2^2*d - 4*x2^2*y2^2 + y2^4) * h1 +
      (x1^4*x2^2*y2^2*d + 2*x1^2*x2^2*y2^2*d + 2*x1^2*x2^2*y2^2 - x1^2*x2^2 + x1^2*y2^2 + y1^4*x2^2*y2^2*d
       - 2*y1^2*x2^2*y2^2*d - 2*y1^2*x2^2*y2^2 + y1^2*x2^2 - y1^2*y2^2 + x2^2*y2^2*d + 2*x2^2*y2^2 - x2^2
       + y2^2 + 1) * hQ
  exact on_of_fraction ha hb key

theorem sumX_comm : sumX d x1 y1 x2 y2 = sumX d x2 y2 x1 y1 := by
  unfold sumX; congr 1 <;> ring

theorem sumY_comm : sumY d x1 y1 x2 y2 = sumY d x2 y2 x1 y1 := by
  unfold sumY; congr 1 <;> ring

/-- The sum's x-coordinate with one operand given as fractions over a = 1 + t and b = 1 - t. -/
theorem sumX_fraction {n m a b : F} (ha : a ≠ 0) (hb : b ≠ 0) :
    sumX d (n / a) (m / b) x3 y3 = (n * b * y3 + m * a * x3) / (a * b + d * n * m * x3 * y3) := by
  have hab : a * b ≠ 0 := mul_ne_zero ha hb
  unfold sumX
  rw [← mul_div_mul_left _ (1 + d * (n / a) * x3 * (m / b) * y3) hab]
  congr 1 <;> (field_simp; try ring)

theorem sumY_fraction {n m a b : F} (ha : a ≠ 0) (hb : b ≠ 0) :
    sumY d (n / a) (m / b) x3 y3 = (m * a * y3 + n * b * x3) / (a * b - d * n * m * x3 * y3) := by
  have hab : a * b ≠ 0 := mul_ne_zero ha hb
  unfold sumY
  rw [← mul_div_mul_left _ (1 - d * (n / a) * x3 * (m / b) * y3) hab]
  congr 1 <;> (field_simp; try ring)

theorem fraction_den_add {n m a b : F} (ha : a ≠ 0) (hb : b ≠ 0) (h : 1 + d * (n / a) * x3 * (m / b) * y3 ≠ 0) :
    a * b + d * n * m * x3 * y3 ≠ 0 := by
  have e : a * b + d * n * m * x3 * y3 = (a * b) * (1 + d * (n / a) * x3 * (m / b) * y3) := by field_simp
  rw [e]; exact mul_ne_zero (mul_ne_zero ha hb) h

theorem fraction_den_sub {n m a b : F} (ha : a ≠ 0) (hb : b ≠ 0) (h : 1 - d * (n / a) * x3 * (m / b) * y3 ≠ 0) :
    a * b - d * n * m * x3 * y3 ≠ 0 := by
  have e : a * b - d * n * m * x3 * y3 = (a * b) * (1 - d * (n / a) * x3 * (m / b) * y3) := by field_simp
  rw [e]; exact mul_ne_zero (mul_ne_zero ha hb) h

/-- Associativity, the x-coordinate. -/
theorem sumX_assoc (hi : i ^ 2 = -1) (hd : ¬ IsSquare d) (h2' : (2 : F) ≠ 0) (h1 : On d x1 y1) (h2 : On d x2 y2)
    (h3 : On d x3 y3) :
    sumX d (sumX d x1 y1 x2 y2) (sumY d x1 y1 x2 y2) x3 y3
      = sumX d x1 y1 (sumX d x2 y2 x3 y3) (sumY d x2 y2 x3 y3) := by
  have ha := one_add_ne_zero hi hd h2' h1 h2
  have hb := one_sub_ne_zero hi hd h2' h1 h2
  have hc := one_add_ne_zero hi hd h2' h2 h3
  have he := one_sub_ne_zero hi hd h2' h2 h3
  have hl := fraction_den_add ha hb (one_add_ne_zero hi hd h2' (on_sum hi hd h2' h1 h2) h3)
  have hr := fraction_den_add hc he (one_add_ne_zero hi hd h2' (on_sum hi hd h2' h2 h3) h1)
  rw [sumX_comm (x1 := x1) (y1 := y1) (x2 := sumX d x2 y2 x3 y3)]
  rw [show sumX d x1 y1 x2 y2 = (x1 * y2 + x2 * y1) / (1 + d * x1 * x2 * y1 * y2) from rfl,
    show sumY d x1 y1 x2 y2 = (y1 * y2 + x1 * x2) / (1 - d * x1 * x2 * y1 * y2) from rfl,
    show sumX d x2 y2 x3 y3 = (x2 * y3 + x3 * y2) / (1 + d * x2 * x3 * y2 * y3) from rfl,
    show sumY d x2 y2 x3 y3 = (y2 * y3 + x2 * x3) / (1 - d * x2 * x3 * y2 * y3) from rfl,
    sumX_fraction ha hb, sumX_fraction hc he, div_eq_div_iff hl hr]
  unfold On at h1 h2 h3
  linear_combination
    (-x1*x2^4*y2^3*x3^2*y3*d^2 - x1*x2^4*y2*x3^2*y3*d - x1*x2^3*y2^4*x3*y3^2*d^2 - x1*x2^3*y2^2*x3^3*d
     - x1*x2^3*y2^2*x3*d + x1*x2^2*y2^3*y3^3*d - x1*x2^2*y2^3*y3*d + x1*x2*y2^4*x3*y3^2*d
     + y1*x2^4*y2^3*x3*y3^2*d^2 + y1*x2^4*y2*x3*y3^2*d + y1*x2^3*y2^4*x3^2*y3*d^2 + y1*x2^3*y2^2*y3^3*d
     - y1*x2^3*y2^2*y3*d - y1*x2^2*y2^3*x3^3*d - y1*x2^2*y2^3*x3*d - y1*x2*y2^4*x3^2*y3*d) * h1 +
    (x1^3*x2^2*y2*x3^2*y3*d + x1^3*x2*y2^2*x3*y3^2*d + x1^3*x2*x3^3*y3^2*d + x1^3*x2*x3^3 - x1^3*x2*x3*y3^2
     + x1^3*x2*x3 + x1^3*y2*x3^2*y3^3*d + x1^3*y2*x3^2*y3 - x1^3*y2*y3^3 + x1^3*y2*y3
     + x1^2*y1*x2^2*y2*x3^3*y3^2*d^2 - x1^2*y1*x2^2*y2*x3*y3^2*d - x1^2*y1*x2*y2^2*x3^2*y3^3*d^2
     - x1^2*y1*x2*y2^2*x3^2*y3*d + x1^2*y1*x2*x3^2*y3^3*d + x1^2*y1*x2*x3^2*y3 - x1^2*y1*x2*y3^3
     + x1^2*y1*x2*y3 + x1^2*y1*y2*x3^3*y3^2*d + x1^2*y1*y2*x3^3 - x1^2*y1*y2*x3*y3^2 + x1^2*y1*y2*x3
     - x1*y1^2*x2^2*y2*x3^2*y3^3*d^2 - x1*y1^2*x2^2*y2*x3^2*y3*d + x1*y1^2*x2*y2^2*x3^3*y3^2*d^2
     - x1*y1^2*x2*y2^2*x3*y3^2*d - x1*y1^2*x2*x3^3*y3^2*d - x1*y1^2*x2*x3^3 + x1*y1^2*x2*x3*y3^2
     - x1*y1^2*x2*x3 - x1*y1^2*y2*x3^2*y3^3*d - x1*y1^2*y2*x3^2*y3 + x1*y1^2*y2*y3^3 - x1*y1^2*y2*y3
     + x1*x2^2*y2*x3^2*y3*d + x1*x2*y2^2*x3*y3^2*d + x1*x2*x3^3*y3^2*d + x1*x2*x3^3 - x1*x2*x3*y3^2
     + x1*x2*x3 + x1*y2*x3^2*y3^3*d + x1*y2*x3^2*y3 - x1*y2*y3^3 + x1*y2*y3 + y1^3*x2^2*y2*x3*y3^2*d
     + y1^3*x2*y2^2*x3^2*y3*d - y1^3*x2*x3^2*y3^3*d - y1^3*x2*x3^2*y3 + y1^3*x2*y3^3 - y1^3*x2*y3
     - y1^3*y2*x3^3*y3^2*d - y1^3*y2*x3^3 + y1^3*y2*x3*y3^2 - y1^3*y2*x3 - y1*x2^2*y2*x3*y3^2*d
     - y1*x2*y2^2*x3^2*y3*d + y1*x2*x3^2*y3^3*d + y1*x2*x3^2*y3 - y1*x2*y3^3 + y1*x2*y3
     + y1*y2*x3^3*y3^2*d + y1*y2*x3^3 - y1*y2*x3*y3^2 + y1*y2*x3) * h2 +
    (-x1^3*x2^3*x3 - x1^3*x2^2*y2*y3 + x1^3*x2*y2^2*x3 - x1^3*x2*x3 + x1^3*y2^3*y3 - x1^3*y2*y3
     - x1^2*y1*x2^3*y3 - x1^2*y1*x2^2*y2*x3*d - x1^2*y1*x2^2*y2*x3 + x1^2*y1*x2*y2^2*y3*d
     + x1^2*y1*x2*y2^2*y3 - x1^2*y1*x2*y3 + x1^2*y1*y2^3*x3 - x1^2*y1*y2*x3 + x1*y1^2*x2^3*x3
     + x1*y1^2*x2^2*y2*y3*d + x1*y1^2*x2^2*y2*y3 - x1*y1^2*x2*y2^2*x3*d - x1*y1^2*x2*y2^2*x3 + x1*y1^2*x2*x3
     - x1*y1^2*y2^3*y3 + x1*y1^2*y2*y3 - x1*x2^3*x3 - x1*x2^2*y2*y3 + x1*x2*y2^2*x3 - x1*x2*x3
     + x1*y2^3*y3 - x1*y2*y3 + y1^3*x2^3*y3 + y1^3*x2^2*y2*x3 - y1^3*x2*y2^2*y3 + y1^3*x2*y3
     - y1^3*y2^3*x3 + y1^3*y2*x3 - y1*x2^3*y3 - y1*x2^2*y2*x3 + y1*x2*y2^2*y3 - y1*x2*y3 + y1*y2^3*x3
     - y1*y2*x3) * h3

/-- Associativity, the y-coordinate. -/
theorem sumY_assoc (hi : i ^ 2 = -1) (hd : ¬ IsSquare d) (h2' : (2 : F) ≠ 0) (h1 : On d x1 y1) (h2 : On d x2 y2)
    (h3 : On d x3 y3) :
    sumY d (sumX d x1 y1 x2 y2) (sumY d x1 y1 x2 y2) x3 y3
      = sumY d x1 y1 (sumX d x2 y2 x3 y3) (sumY d x2 y2 x3 y3) := by
  have ha := one_add_ne_zero hi hd h2' h1 h2
  have hb := one_sub_ne_zero hi hd h2' h1 h2
  have hc := one_add_ne_zero hi hd h2' h2 h3
  have he := one_sub_ne_zero hi hd h2' h2 h3
  have hl := fraction_den_sub ha hb (one_sub_ne_zero hi hd h2' (on_sum hi hd h2' h1 h2) h3)
  have hr := fraction_den_sub hc he (one_sub_ne_zero hi hd h2' (on_sum hi hd h2' h2 h3) h1)
  rw [sumY_comm (x1 := x1) (y1 := y1) (x2 := sumX d x2 y2 x3 y3)]
  rw [show sumX d x1 y1 x2 y2 = (x1 * y2 + x2 * y1) / (1 + d * x1 * x2 * y1 * y2) from rfl,
    show sumY d x1 y1 x2 y2 = (y1 * y2 + x1 * x2) / (1 - d * x1 * x2 * y1 * y2) from rfl,
    show sumX d x2 y2 x3 y3 = (x2 * y3 + x3 * y2) / (1 + d * x2 * x3 * y2 * y3) from rfl,
    show sumY d x2 y2 x3 y3 = (y2 * y3 + x2 * x3) / (1 - d * x2 * x3 * y2 * y3) from rfl,
    sumY_fraction ha hb, sumY_fraction hc he, div_eq_div_iff hl hr]
  unfold On at h1 h2 h3
  linear_combination
    (x1*x2^4*y2^3*x3*y3^2*d^2 + x1*x2^4*y2*x3*y3^2*d + x1*x2^3*y2^4*x3^2*y3*d^2 + x1*x2^3*y2^2*y3^3*d
     - x1*x2^3*y2^2*y3*d - x1*x2^2*y2^3*x3^3*d - x1*x2^2*y2^3*x3*d - x1*x2*y2^4*x3^2*y3*d
     - y1*x2^4*y2^3*x3^2*y3*d^2 - y1*x2^4*y2*x3^2*y3*d - y1*x2^3*y2^4*x3*y3^2*d^2 - y1*x2^3*y2^2*x3^3*d
     - y1*x2^3*y2^2*x3*d + y1*x2^2*y2^3*y3^3*d - y1*x2^2*y2^3*y3*d + y1*x2*y2^4*x3*y3^2*d) * h1 +
    (-x1^3*x2^2*y2*x3*y3^2*d - x1^3*x2*y2^2*x3^2*y3*d + x1^3*x2*x3^2*y3^3*d + x1^3*x2*x3^2*y3 - x1^3*x2*y3^3
     + x1^3*x2*y3 + x1^3*y2*x3^3*y3^2*d + x1^3*y2*x3^3 - x1^3*y2*x3*y3^2 + x1^3*y2*x3
     + x1^2*y1*x2^2*y2*x3^2*y3^3*d^2 + x1^2*y1*x2^2*y2*x3^2*y3*d - x1^2*y1*x2*y2^2*x3^3*y3^2*d^2
     + x1^2*y1*x2*y2^2*x3*y3^2*d + x1^2*y1*x2*x3^3*y3^2*d + x1^2*y1*x2*x3^3 - x1^2*y1*x2*x3*y3^2
     + x1^2*y1*x2*x3 + x1^2*y1*y2*x3^2*y3^3*d + x1^2*y1*y2*x3^2*y3 - x1^2*y1*y2*y3^3 + x1^2*y1*y2*y3
     - x1*y1^2*x2^2*y2*x3^3*y3^2*d^2 + x1*y1^2*x2^2*y2*x3*y3^2*d + x1*y1^2*x2*y2^2*x3^2*y3^3*d^2
     + x1*y1^2*x2*y2^2*x3^2*y3*d - x1*y1^2*x2*x3^2*y3^3*d - x1*y1^2*x2*x3^2*y3 + x1*y1^2*x2*y3^3
     - x1*y1^2*x2*y3 - x1*y1^2*y2*x3^3*y3^2*d - x1*y1^2*y2*x3^3 + x1*y1^2*y2*x3*y3^2 - x1*y1^2*y2*x3
     - x1*x2^2*y2*x3*y3^2*d - x1*x2*y2^2*x3^2*y3*d + x1*x2*x3^2*y3^3*d + x1*x2*x3^2*y3 - x1*x2*y3^3
     + x1*x2*y3 + x1*y2*x3^3*y3^2*d + x1*y2*x3^3 - x1*y2*x3*y3^2 + x1*y2*x3 - y1^3*x2^2*y2*x3^2*y3*d
     - y1^3*x2*y2^2*x3*y3^2*d - y1^3*x2*x3^3*y3^2*d - y1^3*x2*x3^3 + y1^3*x2*x3*y3^2 - y1^3*x2*x3
     - y1^3*y2*x3^2*y3^3*d - y1^3*y2*x3^2*y3 + y1^3*y2*y3^3 - y1^3*y2*y3 + y1*x2^2*y2*x3^2*y3*d
     + y1*x2*y2^2*x3*y3^2*d + y1*x2*x3^3*y3^2*d + y1*x2*x3^3 - y1*x2*x3*y3^2 + y1*x2*x3
     + y1*y2*x3^2*y3^3*d + y1*y2*x3^2*y3 - y1*y2*y3^3 + y1*y2*y3) * h2 +
    (-x1^3*x2^3*y3 - x1^3*x2^2*y2*x3 + x1^3*x2*y2^2*y3 - x1^3*x2*y3 + x1^3*y2^3*x3 - x1^3*y2*x3
     - x1^2*y1*x2^3*x3 - x1^2*y1*x2^2*y2*y3*d - x1^2*y1*x2^2*y2*y3 + x1^2*y1*x2*y2^2*x3*d
     + x1^2*y1*x2*y2^2*x3 - x1^2*y1*x2*x3 + x1^2*y1*y2^3*y3 - x1^2*y1*y2*y3 + x1*y1^2*x2^3*y3
     + x1*y1^2*x2^2*y2*x3*d + x1*y1^2*x2^2*y2*x3 - x1*y1^2*x2*y2^2*y3*d - x1*y1^2*x2*y2^2*y3 + x1*y1^2*x2*y3
     - x1*y1^2*y2^3*x3 + x1*y1^2*y2*x3 - x1*x2^3*y3 - x1*x2^2*y2*x3 + x1*x2*y2^2*y3 - x1*x2*y3
     + x1*y2^3*x3 - x1*y2*x3 + y1^3*x2^3*x3 + y1^3*x2^2*y2*y3 - y1^3*x2*y2^2*x3 + y1^3*x2*x3
     - y1^3*y2^3*y3 + y1^3*y2*y3 - y1*x2^3*x3 - y1*x2^2*y2*y3 + y1*x2*y2^2*x3 - y1*x2*x3 + y1*y2^3*y3
     - y1*y2*y3) * h3

end Sys2Proof.Edwards
end

