-- ==== Sys2Proof/Laws/FieldLaws.lean ====
section
/-! SUPPORT. The field commands' arithmetic is that of the field Z/q: each operation of Machine/FieldArith.lean read in `ZMod q`,
and the facts about d, I and square roots that the point commands rest on. -/

namespace Sys2Proof

/-- q is prime, in the form the library's field instance of `ZMod q` asks for. -/
theorem fact_q_prime : Fact (Nat.Prime q) := ⟨q_prime⟩

/-- A canonical value as a residue. -/
def Fe.toZ (a : Fe) : ZMod q := (a.val : ZMod q)

theorem Fe.toZ_inj {a b : Fe} : a.toZ = b.toZ ↔ a = b := by
  constructor
  · intro h
    have := (ZMod.natCast_eq_natCast_iff a.val b.val q).1 h
    rw [Nat.ModEq, Nat.mod_eq_of_lt a.isLt, Nat.mod_eq_of_lt b.isLt] at this
    exact Fin.ext this
  · rintro rfl; rfl

@[simp] theorem Fe.val_ofNat (n : Nat) : (Fe.ofNat n).val = n % q := rfl

theorem Fe.ofNat_val (a : Fe) : Fe.ofNat a.val = a := Fin.ext (Nat.mod_eq_of_lt a.isLt)

theorem Fe.val_ofInt (z : Int) : ((Fe.ofInt z).val : Int) = z % (q : Int) := by
  have h0 : (0 : Int) ≤ z % (q : Int) := Int.emod_nonneg z (by exact_mod_cast q_pos.ne')
  simp [Fe.ofInt, Int.toNat_of_nonneg h0]

@[simp] theorem Fe.toZ_ofNat (n : Nat) : (Fe.ofNat n).toZ = (n : ZMod q) := by
  simp [Fe.toZ, ZMod.natCast_mod]

@[simp] theorem Fe.toZ_ofInt (z : Int) : (Fe.ofInt z).toZ = (z : ZMod q) := by
  have h : (Fe.ofInt z).toZ = (((Fe.ofInt z).val : Int) : ZMod q) := by simp [Fe.toZ]
  rw [h, Fe.val_ofInt, ZMod.intCast_mod]

theorem Fe.natCast_val (a : Fe) : ((a.val : Nat) : ZMod q) = a.toZ := rfl
theorem Fe.intCast_val (a : Fe) : (((a.val : Int)) : ZMod q) = a.toZ := by simp [Fe.toZ]

@[simp] theorem Fe.toZ_zero : Fe.zero.toZ = 0 := by simp [Fe.zero]
@[simp] theorem Fe.toZ_one : Fe.one.toZ = 1 := by simp [Fe.one]
@[simp] theorem Fe.toZ_add (a b : Fe) : (Fe.add a b).toZ = a.toZ + b.toZ := by simp [Fe.add, Fe.natCast_val]
@[simp] theorem Fe.toZ_sub (a b : Fe) : (Fe.sub a b).toZ = a.toZ - b.toZ := by
  simp only [Fe.sub, Fe.toZ_ofInt, Int.cast_sub, Fe.intCast_val]
@[simp] theorem Fe.toZ_mul (a b : Fe) : (Fe.mul a b).toZ = a.toZ * b.toZ := by simp [Fe.mul, Fe.natCast_val]
@[simp] theorem Fe.toZ_neg (a : Fe) : (Fe.neg a).toZ = -a.toZ := by
  simp only [Fe.neg, Fe.toZ_ofInt, zero_sub, Int.cast_neg, Fe.intCast_val]

theorem Fe.toZ_eq_zero {a : Fe} : a.toZ = 0 ↔ a = Fe.zero := by rw [← Fe.toZ_zero, Fe.toZ_inj]

theorem one_lt_q : 1 < q := by decide

/-- A power with a 256-bit exponent is the exact power mod q. -/
theorem Fe.val_pow (a : Fe) {k : Nat} (hk : k < 2 ^ 256) : (Fe.pow a k).val = a.val ^ k % q := by
  simp [Fe.pow, powMod_eq q a.val one_lt_q 256 k hk]

theorem Fe.toZ_pow (a : Fe) {k : Nat} (hk : k < 2 ^ 256) : (Fe.pow a k).toZ = a.toZ ^ k := by
  rw [Fe.pow, powMod_eq q a.val one_lt_q 256 k hk, Fe.toZ_ofNat, ZMod.natCast_mod, Nat.cast_pow, Fe.natCast_val]

theorem Fe.toZ_inv (a : Fe) : haveI := fact_q_prime; (Fe.inv a).toZ = a.toZ⁻¹ := by
  have := fact_q_prime
  rw [Fe.inv, Fe.toZ_pow a (by decide)]
  by_cases h : a.toZ = 0
  · rw [h, inv_zero, zero_pow (by decide)]
  · have hf : a.toZ ^ (q - 1) = 1 := ZMod.pow_card_sub_one_eq_one h
    have hs : q - 1 = (q - 2) + 1 := by decide
    rw [hs, pow_succ] at hf
    exact eq_inv_of_mul_eq_one_left hf

/-! ### The constants (R8, R9) -/

theorem toZ_pow_eq_one_iff (a : Fe) {k : Nat} (hk : k < 2 ^ 256) (b : Fe) :
    a.toZ ^ k = b.toZ ↔ Fe.pow a k = b := by rw [← Fe.toZ_pow a hk, Fe.toZ_inj]

/-- I^2 = -1 (R8). -/
theorem sqrtMinusOne_sq : sqrtMinusOne.toZ ^ 2 = -1 := by
  have h : Fe.mul sqrtMinusOne sqrtMinusOne = Fe.neg Fe.one := by decide +kernel
  rw [pow_two, ← Fe.toZ_mul, h]; simp

/-- d is a non-square (R9): d^((q-1)/2) = -1. -/
theorem curveD_not_square : ¬ IsSquare curveD.toZ := by
  have := fact_q_prime
  rintro ⟨r, hr⟩
  have hp : curveD.toZ ^ ((q - 1) / 2) = -1 := by
    have h : Fe.pow curveD ((q - 1) / 2) = Fe.neg Fe.one := by decide +kernel
    rw [← Fe.toZ_pow curveD (by decide), h]; simp
  have h2 : 2 * ((q - 1) / 2) = q - 1 := by decide
  have hr0 : r ≠ 0 := by
    rintro rfl
    rw [hr, mul_zero, zero_pow (by decide)] at hp
    exact absurd hp.symm (by simp)
  rw [hr, ← pow_two, ← pow_mul, h2, ZMod.pow_card_sub_one_eq_one hr0] at hp
  have h3 : (Fe.one).toZ = (Fe.neg Fe.one).toZ := by simpa using hp
  exact absurd (Fe.toZ_inj.1 h3) (by decide +kernel)

theorem two_ne_zero_q : (2 : ZMod q) ≠ 0 := by
  have h : (Fe.ofNat 2).toZ ≠ 0 := fun h => absurd (Fe.toZ_eq_zero.1 h) (by decide +kernel)
  simpa using h

/-! ### Parity and square roots -/

theorem Fe.isNeg_eq (a : Fe) : Fe.isNeg a = decide (a.val % 2 = 1) := by
  simp [Fe.isNeg, Nat.testBit_zero]

theorem q_odd : q % 2 = 1 := by decide

theorem Fe.eq_zero_iff_val (a : Fe) : a = Fe.zero ↔ a.val = 0 := by
  rw [Fin.ext_iff]; simp [Fe.zero]

theorem Fe.val_neg {a : Fe} (h : a ≠ Fe.zero) : (Fe.neg a).val = q - a.val := by
  have h0 : a.val ≠ 0 := fun h' => h ((Fe.eq_zero_iff_val a).2 h')
  have hlt := a.isLt
  have e : ((0 : Int) - a.val) % (q : Int) = (q : Int) - a.val := by
    rw [show (0 : Int) - a.val = (q - a.val) + q * (-1) by ring, Int.add_mul_emod_self_left]
    exact Int.emod_eq_of_lt (by omega) (by omega)
  have : ((Fe.neg a).val : Int) = (q : Int) - a.val := by rw [Fe.neg, Fe.val_ofInt, e]
  omega

/-- The two roots r and q - r of a square have opposite parities (R147). -/
theorem Fe.isNeg_neg {a : Fe} (h : a ≠ Fe.zero) : Fe.isNeg (Fe.neg a) = !Fe.isNeg a := by
  have hlt := a.isLt
  have hq := q_odd
  rw [Fe.isNeg_eq, Fe.isNeg_eq, Fe.val_neg h]
  by_cases h1 : a.val % 2 = 1
  · rw [decide_eq_true h1, decide_eq_false (by omega)]; rfl
  · rw [decide_eq_false h1, decide_eq_true (by omega)]; rfl

theorem Fe.neg_ne_self {a : Fe} (h : a ≠ Fe.zero) : Fe.neg a ≠ a := fun e => by
  have := Fe.isNeg_neg h
  rw [e] at this
  cases hb : Fe.isNeg a <;> simp [hb] at this

/-- What `Fe.sqrt` answers is a root. -/
theorem Fe.mul_self_of_sqrt {a r : Fe} (h : Fe.sqrt a = some r) : Fe.mul r r = a := by
  unfold Fe.sqrt at h
  simp only at h
  split at h
  · next hr => cases h; exact hr
  · split at h
    · next hr => cases h; exact hr
    · cases h

/-- Where `Fe.sqrt` answers none, there is no root: Euler's criterion for q mod 8 = 5. -/
theorem Fe.no_root_of_sqrt {a : Fe} (h : Fe.sqrt a = none) (x : Fe) : Fe.mul x x ≠ a := by
  have := fact_q_prime
  intro hx
  unfold Fe.sqrt at h
  simp only at h
  split at h
  · cases h
  · next h1 =>
    split at h
    · cases h
    · next h2 =>
      rw [← Fe.toZ_inj, Fe.toZ_mul, Fe.toZ_pow a (by decide)] at h1
      rw [← Fe.toZ_inj, Fe.toZ_mul, Fe.toZ_mul, Fe.toZ_pow a (by decide)] at h2
      have hxa : x.toZ ^ 2 = a.toZ := by rw [← hx, Fe.toZ_mul, pow_two]
      have hI := sqrtMinusOne_sq
      by_cases hx0 : x.toZ = 0
      · have ha : a.toZ = 0 := by rw [← hxa, hx0]; ring
        exact h1 (by rw [ha, zero_pow (by decide), mul_zero])
      · have e : 2 * ((q + 3) / 8) = 1 + (q - 1) / 4 := by decide
        have hr : a.toZ ^ ((q + 3) / 8) * a.toZ ^ ((q + 3) / 8) = a.toZ * a.toZ ^ ((q - 1) / 4) := by
          rw [← pow_add, ← two_mul, e, pow_add, pow_one]
        have hu : (a.toZ ^ ((q - 1) / 4)) ^ 2 = 1 := by
          rw [← hxa, ← pow_mul, ← pow_mul, show 2 * ((q - 1) / 4 * 2) = q - 1 by decide]
          exact ZMod.pow_card_sub_one_eq_one hx0
        rcases sq_eq_sq_iff_eq_or_eq_neg.1 (hu.trans (one_pow 2).symm) with hu | hu
        · exact h1 (by rw [hr, hu, mul_one])
        · exact h2 (by
            rw [mul_mul_mul_comm, hr, hu, ← pow_two, hI]; ring)

end Sys2Proof
end

