-- ==== Sys2Proof/Laws/PointLaws.lean ====
section
/-! SUPPORT. The group law of Machine/PointArith.lean (spec/41_point.md R140): it stays on the curve, it is associative and
commutative with neutral N and inverse ⊖, double-and-add is the k-fold sum, and decoding gives points of the curve. -/

namespace Sys2Proof

/-- The point is on the curve (R16). -/
def Point.OnCurve (P : Point) : Prop := onCurve P.x P.y = true

theorem onCurve_iff (x y : Fe) : onCurve x y = true ↔ Edwards.On curveD.toZ x.toZ y.toZ := by
  unfold onCurve Edwards.On
  rw [beq_iff_eq, ← Fe.toZ_inj, Fe.toZ_ofInt, Fe.toZ_zero]
  push_cast
  simp only [Fe.natCast_val]
  constructor <;> intro h <;> linear_combination h

/-- The curve test as R15 writes it, over the integers. -/
theorem onCurve_eq_decide (x y : Fe) : onCurve x y =
    decide ((-(x.val : Int) ^ 2 + (y.val : Int) ^ 2 - 1 - (curveD.val : Int) * (x.val : Int) ^ 2 * (y.val : Int) ^ 2) % (q : Int)
      = 0) := by
  rw [onCurve, Bool.beq_eq_decide_eq]
  congr 1
  rw [← Fe.toZ_inj, Fe.toZ_zero, Fe.toZ_ofInt]
  rw [show -((x.val : Int) * x.val) + (y.val : Int) * y.val - 1 - (curveD.val : Int) * (x.val * x.val) * (y.val * y.val) =
    -(x.val : Int) ^ 2 + (y.val : Int) ^ 2 - 1 - (curveD.val : Int) * (x.val : Int) ^ 2 * (y.val : Int) ^ 2 by ring]
  rw [ZMod.intCast_zmod_eq_zero_iff_dvd, Int.dvd_iff_emod_eq_zero]

theorem Point.onCurve_iff (P : Point) : P.OnCurve ↔ Edwards.On curveD.toZ P.x.toZ P.y.toZ := Sys2Proof.onCurve_iff _ _

theorem Point.ext_toZ {P Q : Point} (hx : P.x.toZ = Q.x.toZ) (hy : P.y.toZ = Q.y.toZ) : P = Q := by
  cases P; cases Q
  simp only [Fe.toZ_inj] at hx hy
  rw [hx, hy]

theorem Point.toZ_add_x (P Q : Point) : haveI := fact_q_prime
    (Point.add P Q).x.toZ = Edwards.sumX curveD.toZ P.x.toZ P.y.toZ Q.x.toZ Q.y.toZ := by
  have := fact_q_prime
  unfold Point.add Edwards.sumX
  simp only [Fe.toZ_ofNat, Nat.cast_mul, Nat.cast_add, Fe.natCast_val, Fe.toZ_inv, ZMod.natCast_mod, Nat.cast_one]
  rw [div_eq_mul_inv]

theorem Point.toZ_add_y (P Q : Point) : haveI := fact_q_prime
    (Point.add P Q).y.toZ = Edwards.sumY curveD.toZ P.x.toZ P.y.toZ Q.x.toZ Q.y.toZ := by
  have := fact_q_prime
  unfold Point.add Edwards.sumY
  simp only [Fe.toZ_ofNat, Fe.toZ_ofInt, Nat.cast_mul, Nat.cast_add, Fe.natCast_val, Fe.toZ_inv, ZMod.natCast_mod,
    Int.cast_sub, Int.cast_one, Int.cast_natCast]
  rw [div_eq_mul_inv]

/-! ### The group -/

theorem Point.neutral_onCurve : Point.OnCurve neutral := by unfold Point.OnCurve; decide +kernel
theorem Point.base_onCurve : Point.OnCurve basePoint := by unfold Point.OnCurve; decide +kernel

/-- For points of the curve neither 1 + t nor 1 - t is 0 mod q (R140). -/
theorem Point.den_ne_zero {P Q : Point} (hP : P.OnCurve) (hQ : Q.OnCurve) :
    1 + curveD.toZ * P.x.toZ * Q.x.toZ * P.y.toZ * Q.y.toZ ≠ 0 ∧ 1 - curveD.toZ * P.x.toZ * Q.x.toZ * P.y.toZ * Q.y.toZ ≠ 0 := by
  have := fact_q_prime
  rw [Point.onCurve_iff] at hP hQ
  exact ⟨Edwards.one_add_ne_zero sqrtMinusOne_sq curveD_not_square two_ne_zero_q hP hQ,
    Edwards.one_sub_ne_zero sqrtMinusOne_sq curveD_not_square two_ne_zero_q hP hQ⟩

theorem Point.add_onCurve {P Q : Point} (hP : P.OnCurve) (hQ : Q.OnCurve) : (Point.add P Q).OnCurve := by
  have := fact_q_prime
  rw [Point.onCurve_iff] at *
  rw [Point.toZ_add_x, Point.toZ_add_y]
  exact Edwards.on_sum sqrtMinusOne_sq curveD_not_square two_ne_zero_q hP hQ

theorem Point.neg_onCurve {P : Point} (hP : P.OnCurve) : (Point.neg P).OnCurve := by
  rw [Point.onCurve_iff] at *
  unfold Edwards.On Point.neg at *
  rw [Fe.toZ_neg]
  linear_combination hP

theorem Point.add_comm (P Q : Point) : Point.add P Q = Point.add Q P := by
  have := fact_q_prime
  exact Point.ext_toZ (by rw [Point.toZ_add_x, Point.toZ_add_x, Edwards.sumX_comm])
    (by rw [Point.toZ_add_y, Point.toZ_add_y, Edwards.sumY_comm])

theorem Point.add_assoc {P Q R : Point} (hP : P.OnCurve) (hQ : Q.OnCurve) (hR : R.OnCurve) :
    Point.add (Point.add P Q) R = Point.add P (Point.add Q R) := by
  have := fact_q_prime
  rw [Point.onCurve_iff] at hP hQ hR
  refine Point.ext_toZ ?_ ?_
  · rw [Point.toZ_add_x, Point.toZ_add_x P, Point.toZ_add_x P, Point.toZ_add_y P, Point.toZ_add_x Q, Point.toZ_add_y Q]
    exact Edwards.sumX_assoc sqrtMinusOne_sq curveD_not_square two_ne_zero_q hP hQ hR
  · rw [Point.toZ_add_y, Point.toZ_add_y P (Point.add Q R), Point.toZ_add_x P, Point.toZ_add_y P, Point.toZ_add_x Q,
      Point.toZ_add_y Q]
    exact Edwards.sumY_assoc sqrtMinusOne_sq curveD_not_square two_ne_zero_q hP hQ hR

theorem Point.add_neutral (P : Point) : Point.add P neutral = P := by
  have := fact_q_prime
  refine Point.ext_toZ ?_ ?_
  · rw [Point.toZ_add_x]; simp [neutral, Edwards.sumX]
  · rw [Point.toZ_add_y]; simp [neutral, Edwards.sumY]

theorem Point.neutral_add (P : Point) : Point.add neutral P = P := by rw [Point.add_comm, Point.add_neutral]

theorem Point.add_neg {P : Point} (hP : P.OnCurve) : Point.add P (Point.neg P) = neutral := by
  have := fact_q_prime
  have hd := (Point.den_ne_zero hP (Point.neg_onCurve hP)).2
  rw [Point.onCurve_iff] at hP
  unfold Edwards.On at hP
  refine Point.ext_toZ ?_ ?_
  · rw [Point.toZ_add_x]
    simp only [neutral, Edwards.sumX, Point.neg, Fe.toZ_neg, Fe.toZ_zero]
    rw [div_eq_zero_iff]; left; ring
  · rw [Point.toZ_add_y]
    simp only [neutral, Edwards.sumY, Point.neg, Fe.toZ_neg, Fe.toZ_one] at hd ⊢
    rw [div_eq_one_iff_eq hd]
    linear_combination hP

/-! ### Scalar multiplication -/

theorem Point.kFold_onCurve {P : Point} (hP : P.OnCurve) : ∀ k, (Point.kFold P k).OnCurve
  | 0 => Point.neutral_onCurve
  | k + 1 => Point.add_onCurve (Point.kFold_onCurve hP k) hP

theorem Point.kFold_add {P : Point} (hP : P.OnCurve) (m : Nat) :
    ∀ n, Point.kFold P (m + n) = Point.add (Point.kFold P m) (Point.kFold P n)
  | 0 => (Point.add_neutral _).symm
  | n + 1 => by
    rw [← Nat.add_assoc, Point.kFold, Point.kFold_add hP m n, Point.kFold,
      Point.add_assoc (Point.kFold_onCurve hP m) (Point.kFold_onCurve hP n) hP]

theorem Point.doubleAdd_eq_kFold {P : Point} (hP : P.OnCurve) :
    ∀ fuel k, k < 2 ^ fuel → Point.doubleAdd P fuel k = Point.kFold P k := by
  intro fuel
  induction fuel with
  | zero =>
    intro k hk
    have : k = 0 := by simpa using hk
    subst this; rfl
  | succ fuel ih =>
    intro k hk
    have hk2 : k / 2 < 2 ^ fuel := by rw [pow_succ] at hk; omega
    by_cases hk0 : k = 0
    · subst hk0; rfl
    · simp only [Point.doubleAdd, hk0, if_false, ih _ hk2, ← Point.kFold_add hP]
      split
      · conv_rhs => rw [show k = k / 2 + k / 2 + 1 by omega]
        rfl
      · congr 1; omega

/-- Double-and-add gives the k-fold sum of R16, for every 256-bit k. -/
theorem Point.smul_eq_kFold {P : Point} (hP : P.OnCurve) {k : Nat} (hk : k < 2 ^ 256) : Point.smul k P = Point.kFold P k :=
  Point.doubleAdd_eq_kFold hP 256 k hk

theorem Point.doubleAdd_onCurve {P : Point} (hP : P.OnCurve) : ∀ fuel k, (Point.doubleAdd P fuel k).OnCurve := by
  intro fuel
  induction fuel with
  | zero => exact fun _ => Point.neutral_onCurve
  | succ fuel ih =>
    intro k
    have h2 := Point.add_onCurve (ih (k / 2)) (ih (k / 2))
    simp only [Point.doubleAdd]
    split
    · exact Point.neutral_onCurve
    · split
      · exact Point.add_onCurve h2 hP
      · exact h2

theorem Point.smul_onCurve {P : Point} (hP : P.OnCurve) (k : Nat) : (Point.smul k P).OnCurve :=
  Point.doubleAdd_onCurve hP 256 k

end Sys2Proof
end

