-- ==== Sys2Proof/Laws/EncodingLaws.lean ====
section
/-! SUPPORT. What the encodings of Machine/Operands.lean do: everything the decoding of a point can answer (spec/41_point.md R147),
the field and point encodings (R110, R111, R146), and the words of DBUF (20_memory.md R52). -/

namespace Sys2Proof.Machine

/-! ### Points -/

/-- d*y^2 + 1 is never 0 mod q (R9). -/
theorem d_y_sq_add_one_ne_zero (y : Fe) : curveD.toZ * y.toZ ^ 2 + 1 ≠ 0 := by
  have := fact_q_prime
  intro h
  have hy : y.toZ ≠ 0 := fun h0 => by simp [h0] at h
  have hi := sqrtMinusOne_sq
  refine curveD_not_square ⟨sqrtMinusOne.toZ / y.toZ, ?_⟩
  field_simp
  linear_combination h - hi

theorem toZ_xSquared (y : Fe) : haveI := fact_q_prime
    (xSquared y).toZ = (y.toZ ^ 2 - 1) / (curveD.toZ * y.toZ ^ 2 + 1) := by
  have := fact_q_prime
  simp only [xSquared, Fe.toZ_mul, Fe.toZ_inv, Fe.toZ_ofInt, Fe.toZ_ofNat, Int.cast_sub, Int.cast_mul, Int.cast_one,
    Int.cast_natCast, Nat.cast_add, Nat.cast_mul, Nat.cast_one, Fe.natCast_val]
  rw [div_eq_mul_inv]
  congr 2 <;> ring

/-- The roots of x2 are the x with (x, y) on the curve. -/
theorem mul_self_eq_xSquared_iff (x y : Fe) : Fe.mul x x = xSquared y ↔ onCurve x y = true := by
  have := fact_q_prime
  have hd := d_y_sq_add_one_ne_zero y
  rw [← Fe.toZ_inj, Fe.toZ_mul, toZ_xSquared, eq_div_iff hd, onCurve_iff]
  unfold Edwards.On
  constructor <;> intro h <;> linear_combination -h

theorem eq_or_eq_neg_of_mul_self {a b : Fe} (h : Fe.mul a a = Fe.mul b b) : a = b ∨ a = Fe.neg b := by
  have := fact_q_prime
  rw [← Fe.toZ_inj, Fe.toZ_mul, Fe.toZ_mul] at h
  rw [← Fe.toZ_inj, ← Fe.toZ_inj (b := Fe.neg b), Fe.toZ_neg]
  exact mul_self_eq_mul_self_iff.1 h

theorem mul_self_eq_zero_iff {a : Fe} : Fe.mul a a = Fe.zero ↔ a = Fe.zero := by
  have := fact_q_prime
  rw [← Fe.toZ_eq_zero, ← Fe.toZ_eq_zero, Fe.toZ_mul, mul_self_eq_zero]

theorem neg_neg_eq (a : Fe) : Fe.neg (Fe.neg a) = a := by rw [← Fe.toZ_inj]; simp

theorem mul_neg_self (a : Fe) : Fe.mul (Fe.neg a) (Fe.neg a) = Fe.mul a a := by rw [← Fe.toZ_inj]; simp

/-- The sign bit a decoder takes for x: any for x = 0 in permissive mode, 0 for x = 0 in strict mode, else the parity. -/
def signFits (strict : Bool) (x : Fe) (sign : Bool) : Prop :=
  if x = Fe.zero then (sign && strict) = false else Fe.isNeg x = sign

/-- Everything `recoverPoint` answers: the one point of the curve with this y whose x fits the sign (R147). -/
theorem recoverPoint_eq_ok_iff (strict : Bool) (y : Fe) (sign : Bool) (P : Point) :
    recoverPoint strict y sign = .ok P ↔ P.y = y ∧ P.OnCurve ∧ signFits strict P.x sign := by
  unfold recoverPoint signFits
  obtain ⟨x, y'⟩ := P
  simp only [Point.OnCurve]
  constructor
  · intro h
    split at h
    · cases h
    · next r hr =>
      have hrr := Fe.mul_self_of_sqrt hr
      have hon := (mul_self_eq_xSquared_iff r y).1 hrr
      split at h
      · next h0 =>
        split at h
        · cases h
        · next hs =>
          cases h
          have hr0 : r = Fe.zero := mul_self_eq_zero_iff.1 (hrr.trans h0)
          subst hr0
          exact ⟨rfl, hon, by simpa using hs⟩
      · next h0 =>
        have hr0 : r ≠ Fe.zero := fun e => h0 (by rw [← hrr, e]; exact mul_self_eq_zero_iff.2 rfl)
        split at h
        · next hs => cases h; exact ⟨rfl, hon, by rw [if_neg hr0]; exact hs⟩
        · next hs =>
          cases h
          have hn : Fe.neg r ≠ Fe.zero := fun e => hr0 (by rw [← neg_neg_eq r, e]; decide +kernel)
          refine ⟨rfl, (mul_self_eq_xSquared_iff _ y).1 (by rw [mul_neg_self, hrr]), ?_⟩
          rw [if_neg hn, Fe.isNeg_neg hr0]
          cases hb : Fe.isNeg r <;> cases sign <;> simp_all
  · rintro ⟨rfl, hon, hs⟩
    have hx := (mul_self_eq_xSquared_iff x y').2 hon
    cases hr : Fe.sqrt (xSquared y') with
    | none => exact absurd hx (Fe.no_root_of_sqrt hr x)
    | some r =>
      have hrr := Fe.mul_self_of_sqrt hr
      simp only
      by_cases h0 : xSquared y' = Fe.zero
      · have hx0 : x = Fe.zero := mul_self_eq_zero_iff.1 (hx.trans h0)
        subst hx0
        rw [if_pos rfl] at hs
        simp [h0, hs]
      · have hx0 : x ≠ Fe.zero := fun e => h0 (by rw [← hx, e]; exact mul_self_eq_zero_iff.2 rfl)
        rw [if_neg hx0] at hs
        rw [if_neg h0]
        rcases eq_or_eq_neg_of_mul_self (hrr.trans hx.symm) with e | e
        · subst e; rw [if_pos hs]
        · have hne : Fe.isNeg r ≠ sign := by
            rw [e, Fe.isNeg_neg hx0, hs]; cases sign <;> simp
          rw [if_neg hne, e, neg_neg_eq]

theorem recoverPoint_error {strict : Bool} {y : Fe} {sign : Bool} {c : FaultCode}
    (h : recoverPoint strict y sign = .error c) : c = .decode := by
  unfold recoverPoint at h
  split at h
  · cases h; rfl
  · split at h
    · split at h <;> cases h; rfl
    · split at h <;> cases h

theorem decodePoint_error {strict : Bool} {v : Wide} {c : FaultCode} (h : decodePoint strict v = .error c) : c = .decode := by
  unfold decodePoint at h
  simp only at h
  split at h
  · cases h; rfl
  · exact recoverPoint_error h

theorem decodePoint_onCurve {strict : Bool} {v : Wide} {P : Point} (h : decodePoint strict v = .ok P) : P.OnCurve := by
  unfold decodePoint at h
  simp only at h
  split at h
  · cases h
  · exact ((recoverPoint_eq_ok_iff _ _ _ _).1 h).2.1

/-! ### Fields -/

theorem decodeField_error {strict : Bool} {v : Wide} {c : FaultCode} (h : decodeField strict v = .error c) :
    c = .nonCanon := by
  unfold decodeField at h
  split at h <;> cases h
  rfl

theorem toNat_encodeField (v : Fe) : (encodeField v).toNat = v.val := by
  have : v.val < 2 ^ 256 := lt_trans v.isLt (by decide)
  rw [encodeField, BitVec.toNat_ofNat, Nat.mod_eq_of_lt this]

theorem decodeField_encodeField (strict : Bool) (v : Fe) : decodeField strict (encodeField v) = .ok v := by
  unfold decodeField
  rw [toNat_encodeField, Fe.ofNat_val]
  simp

theorem toNat_encodePoint (P : Point) : (encodePoint P).toNat = P.y.val + (Fe.isNeg P.x).toNat * 2 ^ 255 := by
  have hy : P.y.val < 2 ^ 255 := lt_trans P.y.isLt (by decide)
  have hb : (Fe.isNeg P.x).toNat ≤ 1 := Bool.toNat_le _
  rw [encodePoint, BitVec.toNat_ofNat, Nat.shiftLeft_eq, Nat.mod_eq_of_lt]
  calc _ < 2 ^ 255 + 1 * 2 ^ 255 := by
        exact Nat.add_lt_add_of_lt_of_le hy (Nat.mul_le_mul_right _ hb)
    _ = 2 ^ 256 := by norm_num

theorem encodePoint_low (P : Point) : (encodePoint P).toNat % 2 ^ 255 = P.y.val := by
  have hy : P.y.val < 2 ^ 255 := lt_trans P.y.isLt (by decide)
  rw [toNat_encodePoint, Nat.add_mul_mod_self_right, Nat.mod_eq_of_lt hy]

theorem encodePoint_sign (P : Point) : (encodePoint P).getLsbD 255 = Fe.isNeg P.x := by
  have hy : P.y.val < 2 ^ 255 := lt_trans P.y.isLt (by decide)
  rw [BitVec.getLsbD, toNat_encodePoint]
  cases Fe.isNeg P.x
  · simpa using Nat.testBit_lt_two_pow hy
  · rw [Bool.toNat_true, one_mul, Nat.add_comm, Nat.testBit_two_pow_add_eq, Nat.testBit_lt_two_pow hy]; rfl

/-- Decoding an encoded point of the curve gives it back, in both modes. -/
theorem decodePoint_encodePoint (strict : Bool) {P : Point} (hP : P.OnCurve) :
    decodePoint strict (encodePoint P) = .ok P := by
  unfold decodePoint
  have hlt := P.y.isLt
  simp only [encodePoint_low, encodePoint_sign, Fe.ofNat_val]
  rw [if_neg (by simp)]
  rw [recoverPoint_eq_ok_iff]
  refine ⟨rfl, hP, ?_⟩
  unfold signFits
  split
  · next h => rw [h]; cases strict <;> decide +kernel
  · rfl

/-! ### Words of DBUF -/

theorem getLsbD_setDbufWord (v : Wide) (w : Word) (j k : Nat) (hk : k < 256) :
    (setDbufWord v j w).getLsbD k = if 32 * j ≤ k ∧ k < 32 * j + 32 then w.getLsbD (k - 32 * j) else v.getLsbD k := by
  have hm : ∀ n, (BitVec.ofNat 256 0xFFFFFFFF).getLsbD n = decide (n < 32) := by
    intro n
    rw [BitVec.getLsbD_ofNat, show (0xFFFFFFFF : Nat) = 2 ^ 32 - 1 from rfl, Nat.testBit_two_pow_sub_one]
    by_cases h : n < 32 <;> simp [h]; omega
  simp only [setDbufWord, BitVec.getLsbD_or, BitVec.getLsbD_and, BitVec.getLsbD_not, BitVec.getLsbD_shiftLeft,
    BitVec.getLsbD_setWidth, hm, hk, decide_true, Bool.true_and]
  by_cases h1 : 32 * j ≤ k
  · by_cases h2 : k < 32 * j + 32
    · have h3 : k - 32 * j < 32 := by omega
      have h4 : k - 32 * j < 256 := by omega
      have h5 : ¬ k < 32 * j := by omega
      simp [h1, h2, h3, h4, h5]
    · have h3 : ¬ k - 32 * j < 32 := by omega
      have h5 : w.getLsbD (k - 32 * j) = false := BitVec.getLsbD_of_ge _ _ (by omega)
      simp [h2, h3, h5]
  · have h5 : k < 32 * j := by omega
    simp [h1, h5]

theorem dbufWord_setDbufWord_self (v : Wide) (w : Word) {j : Nat} (hj : j < 8) : dbufWord (setDbufWord v j w) j = w := by
  apply BitVec.eq_of_getLsbD_eq
  intro k hk
  rw [dbufWord, BitVec.getLsbD_extractLsb', getLsbD_setDbufWord _ _ _ _ (by omega)]
  simp [hk]

theorem dbufWord_setDbufWord_ne (v : Wide) (w : Word) {j k : Nat} (hk : k < 8) (h : k ≠ j) :
    dbufWord (setDbufWord v j w) k = dbufWord v k := by
  apply BitVec.eq_of_getLsbD_eq
  intro n hn
  rw [dbufWord, BitVec.getLsbD_extractLsb', getLsbD_setDbufWord _ _ _ _ (by omega), dbufWord, BitVec.getLsbD_extractLsb',
    if_neg (by omega)]

/-- The window is at BASE: offsets and bus addresses correspond (R50). -/
theorem windowOffset_busAddress (off : BitVec 8) : windowOffset (busAddress off) = some off := by
  have h := off.isLt
  have h2 : Config.base + off.toNat - Config.base = off.toNat := Nat.add_sub_cancel_left ..
  unfold windowOffset busAddress
  rw [if_pos ⟨Nat.le_add_right .., by omega⟩, h2, BitVec.ofNat_toNat]
  simp

end Sys2Proof.Machine
end

