-- ==== Sys2Proof/Laws/State.lean ====
section
/-! SUPPORT. What every update of the state does to every field, true by unfolding: later proofs simplify with these and never
unfold a record update. -/

namespace Sys2Proof.Machine

variable (st : State)

/-! ### setF -/

@[simp] theorem State.setF_f (r : FReg) (v : Fe) : (st.setF r v).f = st.f.set r.val v := rfl
@[simp] theorem State.setF_p (r : FReg) (v : Fe) : (st.setF r v).p = st.p := rfl
@[simp] theorem State.setF_s (r : FReg) (v : Fe) : (st.setF r v).s = st.s := rfl
@[simp] theorem State.setF_dbuf (r : FReg) (v : Fe) : (st.setF r v).dbuf = st.dbuf := rfl
@[simp] theorem State.setF_latch (r : FReg) (v : Fe) : (st.setF r v).latch = st.latch := rfl
@[simp] theorem State.setF_cmdrb (r : FReg) (v : Fe) : (st.setF r v).cmdrb = st.cmdrb := rfl
@[simp] theorem State.setF_strict (r : FReg) (v : Fe) : (st.setF r v).strict = st.strict := rfl
@[simp] theorem State.setF_irqEn (r : FReg) (v : Fe) : (st.setF r v).irqEn = st.irqEn := rfl
@[simp] theorem State.setF_busy (r : FReg) (v : Fe) : (st.setF r v).busy = st.busy := rfl
@[simp] theorem State.setF_done (r : FReg) (v : Fe) : (st.setF r v).done = st.done := rfl
@[simp] theorem State.setF_err (r : FReg) (v : Fe) : (st.setF r v).err = st.err := rfl
@[simp] theorem State.setF_flag (r : FReg) (v : Fe) : (st.setF r v).flag = st.flag := rfl
@[simp] theorem State.setF_lost (r : FReg) (v : Fe) : (st.setF r v).lost = st.lost := rfl
@[simp] theorem State.setF_ecode (r : FReg) (v : Fe) : (st.setF r v).ecode = st.ecode := rfl
@[simp] theorem State.setF_resetPin (r : FReg) (v : Fe) : (st.setF r v).resetPin = st.resetPin := rfl
@[simp] theorem State.setF_bus (r : FReg) (v : Fe) : (st.setF r v).bus = st.bus := rfl
@[simp] theorem State.setF_trace (r : FReg) (v : Fe) : (st.setF r v).trace = st.trace := rfl

/-! ### setP -/

@[simp] theorem State.setP_f (r : PReg) (v : Point) : (st.setP r v).f = st.f := rfl
@[simp] theorem State.setP_p (r : PReg) (v : Point) : (st.setP r v).p = st.p.set r.val v := rfl
@[simp] theorem State.setP_s (r : PReg) (v : Point) : (st.setP r v).s = st.s := rfl
@[simp] theorem State.setP_dbuf (r : PReg) (v : Point) : (st.setP r v).dbuf = st.dbuf := rfl
@[simp] theorem State.setP_latch (r : PReg) (v : Point) : (st.setP r v).latch = st.latch := rfl
@[simp] theorem State.setP_cmdrb (r : PReg) (v : Point) : (st.setP r v).cmdrb = st.cmdrb := rfl
@[simp] theorem State.setP_strict (r : PReg) (v : Point) : (st.setP r v).strict = st.strict := rfl
@[simp] theorem State.setP_irqEn (r : PReg) (v : Point) : (st.setP r v).irqEn = st.irqEn := rfl
@[simp] theorem State.setP_busy (r : PReg) (v : Point) : (st.setP r v).busy = st.busy := rfl
@[simp] theorem State.setP_done (r : PReg) (v : Point) : (st.setP r v).done = st.done := rfl
@[simp] theorem State.setP_err (r : PReg) (v : Point) : (st.setP r v).err = st.err := rfl
@[simp] theorem State.setP_flag (r : PReg) (v : Point) : (st.setP r v).flag = st.flag := rfl
@[simp] theorem State.setP_lost (r : PReg) (v : Point) : (st.setP r v).lost = st.lost := rfl
@[simp] theorem State.setP_ecode (r : PReg) (v : Point) : (st.setP r v).ecode = st.ecode := rfl
@[simp] theorem State.setP_resetPin (r : PReg) (v : Point) : (st.setP r v).resetPin = st.resetPin := rfl
@[simp] theorem State.setP_bus (r : PReg) (v : Point) : (st.setP r v).bus = st.bus := rfl
@[simp] theorem State.setP_trace (r : PReg) (v : Point) : (st.setP r v).trace = st.trace := rfl

/-! ### setS -/

@[simp] theorem State.setS_f (r : SReg) (v : Scalar) : (st.setS r v).f = st.f := rfl
@[simp] theorem State.setS_p (r : SReg) (v : Scalar) : (st.setS r v).p = st.p := rfl
@[simp] theorem State.setS_s (r : SReg) (v : Scalar) : (st.setS r v).s = st.s.set r.val v := rfl
@[simp] theorem State.setS_dbuf (r : SReg) (v : Scalar) : (st.setS r v).dbuf = st.dbuf := rfl
@[simp] theorem State.setS_latch (r : SReg) (v : Scalar) : (st.setS r v).latch = st.latch := rfl
@[simp] theorem State.setS_cmdrb (r : SReg) (v : Scalar) : (st.setS r v).cmdrb = st.cmdrb := rfl
@[simp] theorem State.setS_strict (r : SReg) (v : Scalar) : (st.setS r v).strict = st.strict := rfl
@[simp] theorem State.setS_irqEn (r : SReg) (v : Scalar) : (st.setS r v).irqEn = st.irqEn := rfl
@[simp] theorem State.setS_busy (r : SReg) (v : Scalar) : (st.setS r v).busy = st.busy := rfl
@[simp] theorem State.setS_done (r : SReg) (v : Scalar) : (st.setS r v).done = st.done := rfl
@[simp] theorem State.setS_err (r : SReg) (v : Scalar) : (st.setS r v).err = st.err := rfl
@[simp] theorem State.setS_flag (r : SReg) (v : Scalar) : (st.setS r v).flag = st.flag := rfl
@[simp] theorem State.setS_lost (r : SReg) (v : Scalar) : (st.setS r v).lost = st.lost := rfl
@[simp] theorem State.setS_ecode (r : SReg) (v : Scalar) : (st.setS r v).ecode = st.ecode := rfl
@[simp] theorem State.setS_resetPin (r : SReg) (v : Scalar) : (st.setS r v).resetPin = st.resetPin := rfl
@[simp] theorem State.setS_bus (r : SReg) (v : Scalar) : (st.setS r v).bus = st.bus := rfl
@[simp] theorem State.setS_trace (r : SReg) (v : Scalar) : (st.setS r v).trace = st.trace := rfl

/-! ### setDbuf -/

@[simp] theorem State.setDbuf_f (v : Wide) : (st.setDbuf v).f = st.f := rfl
@[simp] theorem State.setDbuf_p (v : Wide) : (st.setDbuf v).p = st.p := rfl
@[simp] theorem State.setDbuf_s (v : Wide) : (st.setDbuf v).s = st.s := rfl
@[simp] theorem State.setDbuf_dbuf (v : Wide) : (st.setDbuf v).dbuf = v := rfl
@[simp] theorem State.setDbuf_latch (v : Wide) : (st.setDbuf v).latch = st.latch := rfl
@[simp] theorem State.setDbuf_cmdrb (v : Wide) : (st.setDbuf v).cmdrb = st.cmdrb := rfl
@[simp] theorem State.setDbuf_strict (v : Wide) : (st.setDbuf v).strict = st.strict := rfl
@[simp] theorem State.setDbuf_irqEn (v : Wide) : (st.setDbuf v).irqEn = st.irqEn := rfl
@[simp] theorem State.setDbuf_busy (v : Wide) : (st.setDbuf v).busy = st.busy := rfl
@[simp] theorem State.setDbuf_done (v : Wide) : (st.setDbuf v).done = st.done := rfl
@[simp] theorem State.setDbuf_err (v : Wide) : (st.setDbuf v).err = st.err := rfl
@[simp] theorem State.setDbuf_flag (v : Wide) : (st.setDbuf v).flag = st.flag := rfl
@[simp] theorem State.setDbuf_lost (v : Wide) : (st.setDbuf v).lost = st.lost := rfl
@[simp] theorem State.setDbuf_ecode (v : Wide) : (st.setDbuf v).ecode = st.ecode := rfl
@[simp] theorem State.setDbuf_resetPin (v : Wide) : (st.setDbuf v).resetPin = st.resetPin := rfl
@[simp] theorem State.setDbuf_bus (v : Wide) : (st.setDbuf v).bus = st.bus := rfl
@[simp] theorem State.setDbuf_trace (v : Wide) : (st.setDbuf v).trace = st.trace := rfl

/-! ### setFlag -/

@[simp] theorem State.setFlag_f (v : Bool) : (st.setFlag v).f = st.f := rfl
@[simp] theorem State.setFlag_p (v : Bool) : (st.setFlag v).p = st.p := rfl
@[simp] theorem State.setFlag_s (v : Bool) : (st.setFlag v).s = st.s := rfl
@[simp] theorem State.setFlag_dbuf (v : Bool) : (st.setFlag v).dbuf = st.dbuf := rfl
@[simp] theorem State.setFlag_latch (v : Bool) : (st.setFlag v).latch = st.latch := rfl
@[simp] theorem State.setFlag_cmdrb (v : Bool) : (st.setFlag v).cmdrb = st.cmdrb := rfl
@[simp] theorem State.setFlag_strict (v : Bool) : (st.setFlag v).strict = st.strict := rfl
@[simp] theorem State.setFlag_irqEn (v : Bool) : (st.setFlag v).irqEn = st.irqEn := rfl
@[simp] theorem State.setFlag_busy (v : Bool) : (st.setFlag v).busy = st.busy := rfl
@[simp] theorem State.setFlag_done (v : Bool) : (st.setFlag v).done = st.done := rfl
@[simp] theorem State.setFlag_err (v : Bool) : (st.setFlag v).err = st.err := rfl
@[simp] theorem State.setFlag_flag (v : Bool) : (st.setFlag v).flag = v := rfl
@[simp] theorem State.setFlag_lost (v : Bool) : (st.setFlag v).lost = st.lost := rfl
@[simp] theorem State.setFlag_ecode (v : Bool) : (st.setFlag v).ecode = st.ecode := rfl
@[simp] theorem State.setFlag_resetPin (v : Bool) : (st.setFlag v).resetPin = st.resetPin := rfl
@[simp] theorem State.setFlag_bus (v : Bool) : (st.setFlag v).bus = st.bus := rfl
@[simp] theorem State.setFlag_trace (v : Bool) : (st.setFlag v).trace = st.trace := rfl

/-! ### finish -/

@[simp] theorem State.finish_f : (st.finish).f = st.f := rfl
@[simp] theorem State.finish_p : (st.finish).p = st.p := rfl
@[simp] theorem State.finish_s : (st.finish).s = st.s := rfl
@[simp] theorem State.finish_dbuf : (st.finish).dbuf = st.dbuf := rfl
@[simp] theorem State.finish_latch : (st.finish).latch = none := rfl
@[simp] theorem State.finish_cmdrb : (st.finish).cmdrb = st.cmdrb := rfl
@[simp] theorem State.finish_strict : (st.finish).strict = st.strict := rfl
@[simp] theorem State.finish_irqEn : (st.finish).irqEn = st.irqEn := rfl
@[simp] theorem State.finish_busy : (st.finish).busy = false := rfl
@[simp] theorem State.finish_done : (st.finish).done = true := rfl
@[simp] theorem State.finish_err : (st.finish).err = st.err := rfl
@[simp] theorem State.finish_flag : (st.finish).flag = st.flag := rfl
@[simp] theorem State.finish_lost : (st.finish).lost = st.lost := rfl
@[simp] theorem State.finish_ecode : (st.finish).ecode = st.ecode := rfl
@[simp] theorem State.finish_resetPin : (st.finish).resetPin = st.resetPin := rfl
@[simp] theorem State.finish_bus : (st.finish).bus = st.bus := rfl
@[simp] theorem State.finish_trace : (st.finish).trace = st.trace := rfl

/-! ### takeFault -/

@[simp] theorem State.takeFault_f (c : FaultCode) : (st.takeFault c).f = st.f := rfl
@[simp] theorem State.takeFault_p (c : FaultCode) : (st.takeFault c).p = st.p := rfl
@[simp] theorem State.takeFault_s (c : FaultCode) : (st.takeFault c).s = st.s := rfl
@[simp] theorem State.takeFault_dbuf (c : FaultCode) : (st.takeFault c).dbuf = st.dbuf := rfl
@[simp] theorem State.takeFault_latch (c : FaultCode) : (st.takeFault c).latch = none := rfl
@[simp] theorem State.takeFault_cmdrb (c : FaultCode) : (st.takeFault c).cmdrb = st.cmdrb := rfl
@[simp] theorem State.takeFault_strict (c : FaultCode) : (st.takeFault c).strict = st.strict := rfl
@[simp] theorem State.takeFault_irqEn (c : FaultCode) : (st.takeFault c).irqEn = st.irqEn := rfl
@[simp] theorem State.takeFault_busy (c : FaultCode) : (st.takeFault c).busy = false := rfl
@[simp] theorem State.takeFault_done (c : FaultCode) : (st.takeFault c).done = true := rfl
@[simp] theorem State.takeFault_err (c : FaultCode) : (st.takeFault c).err = true := rfl
@[simp] theorem State.takeFault_flag (c : FaultCode) : (st.takeFault c).flag = st.flag := rfl
@[simp] theorem State.takeFault_lost (c : FaultCode) : (st.takeFault c).lost = st.lost := rfl
@[simp] theorem State.takeFault_ecode (c : FaultCode) : (st.takeFault c).ecode = c.code := rfl
@[simp] theorem State.takeFault_resetPin (c : FaultCode) : (st.takeFault c).resetPin = st.resetPin := rfl
@[simp] theorem State.takeFault_bus (c : FaultCode) : (st.takeFault c).bus = st.bus := rfl
@[simp] theorem State.takeFault_trace (c : FaultCode) : (st.takeFault c).trace = st.trace := rfl

/-! ### record -/

@[simp] theorem State.record_f (a : Access) : (st.record a).f = st.f := rfl
@[simp] theorem State.record_p (a : Access) : (st.record a).p = st.p := rfl
@[simp] theorem State.record_s (a : Access) : (st.record a).s = st.s := rfl
@[simp] theorem State.record_dbuf (a : Access) : (st.record a).dbuf = st.dbuf := rfl
@[simp] theorem State.record_latch (a : Access) : (st.record a).latch = st.latch := rfl
@[simp] theorem State.record_cmdrb (a : Access) : (st.record a).cmdrb = st.cmdrb := rfl
@[simp] theorem State.record_strict (a : Access) : (st.record a).strict = st.strict := rfl
@[simp] theorem State.record_irqEn (a : Access) : (st.record a).irqEn = st.irqEn := rfl
@[simp] theorem State.record_busy (a : Access) : (st.record a).busy = st.busy := rfl
@[simp] theorem State.record_done (a : Access) : (st.record a).done = st.done := rfl
@[simp] theorem State.record_err (a : Access) : (st.record a).err = st.err := rfl
@[simp] theorem State.record_flag (a : Access) : (st.record a).flag = st.flag := rfl
@[simp] theorem State.record_lost (a : Access) : (st.record a).lost = st.lost := rfl
@[simp] theorem State.record_ecode (a : Access) : (st.record a).ecode = st.ecode := rfl
@[simp] theorem State.record_resetPin (a : Access) : (st.record a).resetPin = st.resetPin := rfl
@[simp] theorem State.record_bus (a : Access) : (st.record a).bus = st.bus := rfl
@[simp] theorem State.record_trace (a : Access) : (st.record a).trace = a :: st.trace := rfl

/-! ### clearStatus -/

@[simp] theorem State.clearStatus_f (v : Word) : (st.clearStatus v).f = st.f := rfl
@[simp] theorem State.clearStatus_p (v : Word) : (st.clearStatus v).p = st.p := rfl
@[simp] theorem State.clearStatus_s (v : Word) : (st.clearStatus v).s = st.s := rfl
@[simp] theorem State.clearStatus_dbuf (v : Word) : (st.clearStatus v).dbuf = st.dbuf := rfl
@[simp] theorem State.clearStatus_latch (v : Word) : (st.clearStatus v).latch = st.latch := rfl
@[simp] theorem State.clearStatus_cmdrb (v : Word) : (st.clearStatus v).cmdrb = st.cmdrb := rfl
@[simp] theorem State.clearStatus_strict (v : Word) : (st.clearStatus v).strict = st.strict := rfl
@[simp] theorem State.clearStatus_irqEn (v : Word) : (st.clearStatus v).irqEn = st.irqEn := rfl
@[simp] theorem State.clearStatus_busy (v : Word) : (st.clearStatus v).busy = st.busy := rfl
@[simp] theorem State.clearStatus_done (v : Word) : (st.clearStatus v).done = (st.done && !v.getLsbD 1) := rfl
@[simp] theorem State.clearStatus_err (v : Word) : (st.clearStatus v).err = (st.err && !v.getLsbD 2) := rfl
@[simp] theorem State.clearStatus_flag (v : Word) : (st.clearStatus v).flag = st.flag := rfl
@[simp] theorem State.clearStatus_lost (v : Word) : (st.clearStatus v).lost = (st.lost && !v.getLsbD 4) := rfl
@[simp] theorem State.clearStatus_ecode (v : Word) : (st.clearStatus v).ecode = (if v.getLsbD 2 then 0#4 else st.ecode) := rfl
@[simp] theorem State.clearStatus_resetPin (v : Word) : (st.clearStatus v).resetPin = st.resetPin := rfl
@[simp] theorem State.clearStatus_bus (v : Word) : (st.clearStatus v).bus = st.bus := rfl
@[simp] theorem State.clearStatus_trace (v : Word) : (st.clearStatus v).trace = st.trace := rfl

/-! ### resetUnit -/

@[simp] theorem State.resetUnit_f : (st.resetUnit).f = Vector.replicate 16 Fe.zero := rfl
@[simp] theorem State.resetUnit_p : (st.resetUnit).p = Vector.replicate 8 neutral := rfl
@[simp] theorem State.resetUnit_s : (st.resetUnit).s = Vector.replicate 4 0#256 := rfl
@[simp] theorem State.resetUnit_dbuf : (st.resetUnit).dbuf = 0#256 := rfl
@[simp] theorem State.resetUnit_latch : (st.resetUnit).latch = none := rfl
@[simp] theorem State.resetUnit_cmdrb : (st.resetUnit).cmdrb = 0#32 := rfl
@[simp] theorem State.resetUnit_strict : (st.resetUnit).strict = true := rfl
@[simp] theorem State.resetUnit_irqEn : (st.resetUnit).irqEn = false := rfl
@[simp] theorem State.resetUnit_busy : (st.resetUnit).busy = false := rfl
@[simp] theorem State.resetUnit_done : (st.resetUnit).done = false := rfl
@[simp] theorem State.resetUnit_err : (st.resetUnit).err = false := rfl
@[simp] theorem State.resetUnit_flag : (st.resetUnit).flag = false := rfl
@[simp] theorem State.resetUnit_lost : (st.resetUnit).lost = false := rfl
@[simp] theorem State.resetUnit_ecode : (st.resetUnit).ecode = 0#4 := rfl
@[simp] theorem State.resetUnit_resetPin : (st.resetUnit).resetPin = st.resetPin := rfl
@[simp] theorem State.resetUnit_bus : (st.resetUnit).bus = st.bus := rfl
@[simp] theorem State.resetUnit_trace : (st.resetUnit).trace = st.trace := rfl

/-! ### driveReset -/

@[simp] theorem State.driveReset_f (b : Bool) : (st.driveReset b).f = Vector.replicate 16 Fe.zero := rfl
@[simp] theorem State.driveReset_p (b : Bool) : (st.driveReset b).p = Vector.replicate 8 neutral := rfl
@[simp] theorem State.driveReset_s (b : Bool) : (st.driveReset b).s = Vector.replicate 4 0#256 := rfl
@[simp] theorem State.driveReset_dbuf (b : Bool) : (st.driveReset b).dbuf = 0#256 := rfl
@[simp] theorem State.driveReset_latch (b : Bool) : (st.driveReset b).latch = none := rfl
@[simp] theorem State.driveReset_cmdrb (b : Bool) : (st.driveReset b).cmdrb = 0#32 := rfl
@[simp] theorem State.driveReset_strict (b : Bool) : (st.driveReset b).strict = true := rfl
@[simp] theorem State.driveReset_irqEn (b : Bool) : (st.driveReset b).irqEn = false := rfl
@[simp] theorem State.driveReset_busy (b : Bool) : (st.driveReset b).busy = false := rfl
@[simp] theorem State.driveReset_done (b : Bool) : (st.driveReset b).done = false := rfl
@[simp] theorem State.driveReset_err (b : Bool) : (st.driveReset b).err = false := rfl
@[simp] theorem State.driveReset_flag (b : Bool) : (st.driveReset b).flag = false := rfl
@[simp] theorem State.driveReset_lost (b : Bool) : (st.driveReset b).lost = false := rfl
@[simp] theorem State.driveReset_ecode (b : Bool) : (st.driveReset b).ecode = 0#4 := rfl
@[simp] theorem State.driveReset_resetPin (b : Bool) : (st.driveReset b).resetPin = b := rfl
@[simp] theorem State.driveReset_bus (b : Bool) : (st.driveReset b).bus = st.bus := rfl
@[simp] theorem State.driveReset_trace (b : Bool) : (st.driveReset b).trace = st.trace := rfl

/-! ### Register files -/

@[simp] theorem State.getF_setF_self (r : FReg) (v : Fe) : (st.setF r v).getF r = v := by simp [State.getF]
@[simp] theorem State.getP_setP_self (r : PReg) (v : Point) : (st.setP r v).getP r = v := by simp [State.getP]
@[simp] theorem State.getS_setS_self (r : SReg) (v : Scalar) : (st.setS r v).getS r = v := by simp [State.getS]

theorem State.getF_setF_ne {r r' : FReg} (h : r' ≠ r) (v : Fe) : (st.setF r v).getF r' = st.getF r' := by
  have : r.val ≠ r'.val := fun e => h (Fin.ext e.symm)
  simp [State.getF, Vector.getElem_set_ne _ _ this]
theorem State.getP_setP_ne {r r' : PReg} (h : r' ≠ r) (v : Point) : (st.setP r v).getP r' = st.getP r' := by
  have : r.val ≠ r'.val := fun e => h (Fin.ext e.symm)
  simp [State.getP, Vector.getElem_set_ne _ _ this]
theorem State.getS_setS_ne {r r' : SReg} (h : r' ≠ r) (v : Scalar) : (st.setS r v).getS r' = st.getS r' := by
  have : r.val ≠ r'.val := fun e => h (Fin.ext e.symm)
  simp [State.getS, Vector.getElem_set_ne _ _ this]

@[simp] theorem State.getP_setF (r : FReg) (v : Fe) (r' : PReg) : (st.setF r v).getP r' = st.getP r' := rfl
@[simp] theorem State.getP_setS (r : SReg) (v : Scalar) (r' : PReg) : (st.setS r v).getP r' = st.getP r' := rfl
@[simp] theorem State.getP_setDbuf (v : Wide) (r' : PReg) : (st.setDbuf v).getP r' = st.getP r' := rfl
@[simp] theorem State.getP_setFlag (v : Bool) (r' : PReg) : (st.setFlag v).getP r' = st.getP r' := rfl
@[simp] theorem State.getP_finish (r' : PReg) : (st.finish).getP r' = st.getP r' := rfl
@[simp] theorem State.getP_takeFault (c : FaultCode) (r' : PReg) : (st.takeFault c).getP r' = st.getP r' := rfl
@[simp] theorem State.getP_record (a : Access) (r' : PReg) : (st.record a).getP r' = st.getP r' := rfl
@[simp] theorem State.getP_clearStatus (v : Word) (r' : PReg) : (st.clearStatus v).getP r' = st.getP r' := rfl
@[simp] theorem State.getF_finish (r : FReg) : (st.finish).getF r = st.getF r := rfl
@[simp] theorem State.getS_finish (r : SReg) : (st.finish).getS r = st.getS r := rfl
@[simp] theorem State.getF_takeFault (c : FaultCode) (r : FReg) : (st.takeFault c).getF r = st.getF r := rfl
@[simp] theorem State.getS_takeFault (c : FaultCode) (r : SReg) : (st.takeFault c).getS r = st.getS r := rfl
theorem State.getP_resetUnit (r' : PReg) : (st.resetUnit).getP r' = neutral := by simp [State.getP]

theorem State.resetUnit_resetUnit : st.resetUnit.resetUnit = st.resetUnit := rfl
theorem State.resetUnit_driveReset (b : Bool) : (st.driveReset b).resetUnit = st.driveReset b := rfl

end Sys2Proof.Machine
end

