-- ==== Sys2Proof/Laws/OpsLaws.lean ====
section
/-! SUPPORT. One lemma per shared operation, saying once everything it can do: the end of a command (spec/60_exceptions.md R201),
acceptance (R201, R203), the host's writes (10_state.md R33 to R37; 70_reset_and_hazards.md R250), the turns and the step. -/

namespace Sys2Proof.Machine

/-! ### The end of a command -/

theorem conclude_ok (st' st : State) : conclude (.ok st') st = .next st'.finish := rfl
theorem conclude_error (c : FaultCode) (st : State) : conclude (.error c) st = .next (st.takeFault c) := rfl

/-- A command always completes: with its writes, or with its fault. -/
theorem conclude_cases (out : Except FaultCode State) (st : State) :
    (∃ st', out = .ok st' ∧ conclude out st = .next st'.finish) ∨
    (∃ c, out = .error c ∧ conclude out st = .next (st.takeFault c)) := by
  cases out with
  | ok st' => exact .inl ⟨st', rfl, rfl⟩
  | error c => exact .inr ⟨c, rfl, rfl⟩

theorem FaultCode.code_bounds (c : FaultCode) : 1 ≤ c.code.toNat ∧ c.code.toNat ≤ 5 := by cases c <;> decide

/-! ### Commands -/

/-- What a command's pseudocode can have written when it did not fault: one F, P or S register, DBUF, FLAG, or nothing; a P register
gets a point of the curve where every P register holds one, and FLAG is a predicate's alone. -/
def Wrote (i : Instr) (st st' : State) : Prop :=
  (∃ r v, st' = st.setF r v) ∨
  (∃ r v, st' = st.setP r v ∧ ((∀ r, (st.getP r).OnCurve) → v.OnCurve)) ∨
  (∃ r v, st' = st.setS r v) ∨
  (∃ v, st' = st.setDbuf v) ∨
  (∃ v, st' = st.setFlag v ∧
    ((∃ b, i = .fisneg b) ∨ (∃ b c, i = .feq b c) ∨ (∃ b c, i = .pchk b c) ∨ (∃ b c, i = .peq b c))) ∨
  st' = st

/-- Everything a command can do. -/
theorem exec_cases (i : Instr) (st : State) :
    (∃ st', exec i st = .next st'.finish ∧ Wrote i st st') ∨ (∃ c, exec i st = .next (st.takeFault c)) := by
  have key : ∃ out, exec i st = conclude out st ∧ ∀ st', out = .ok st' → Wrote i st st' := by
    unfold Wrote
    cases i <;> simp only [exec,
      execFadd, execFsub, execFmul, execFneg, execFinv, execFpow, execFisneg, execFeq, execFld, execFst, execFconst,
      execPadd, execPdbl, execPneg, execPsmul, execPsmulb, execPenc, execPdec, execPchk, execPset, execPgetx, execPgety,
      execPeq, execPconst, execSld, execSst, execNop] <;>
      refine ⟨_, rfl, fun st' h => ?_⟩
    case nop => cases h; simp
    case fisneg => cases h; exact .inr (.inr (.inr (.inr (.inl ⟨_, rfl, by simp⟩))))
    case feq => cases h; exact .inr (.inr (.inr (.inr (.inl ⟨_, rfl, by simp⟩))))
    case pchk => cases h; exact .inr (.inr (.inr (.inr (.inl ⟨_, rfl, by simp⟩))))
    case peq => cases h; exact .inr (.inr (.inr (.inr (.inl ⟨_, rfl, by simp⟩))))
    case fld =>
      cases hd : decodeField st.strict st.dbuf <;> rw [hd] at h <;> cases h
      exact .inl ⟨_, _, rfl⟩
    case fst => cases h; exact .inr (.inr (.inr (.inl ⟨_, rfl⟩)))
    case penc => cases h; exact .inr (.inr (.inr (.inl ⟨_, rfl⟩)))
    case sst => cases h; exact .inr (.inr (.inr (.inl ⟨_, rfl⟩)))
    case sld => cases h; exact .inr (.inr (.inl ⟨_, _, rfl⟩))
    case finv => split at h <;> cases h; exact .inl ⟨_, _, rfl⟩
    case fconst => split at h <;> cases h; exact .inl ⟨_, _, rfl⟩
    case padd => cases h; exact .inr (.inl ⟨_, _, rfl, fun hp => Point.add_onCurve (hp _) (hp _)⟩)
    case pdbl => cases h; exact .inr (.inl ⟨_, _, rfl, fun hp => Point.add_onCurve (hp _) (hp _)⟩)
    case pneg => cases h; exact .inr (.inl ⟨_, _, rfl, fun hp => Point.neg_onCurve (hp _)⟩)
    case psmul => cases h; exact .inr (.inl ⟨_, _, rfl, fun hp => Point.smul_onCurve (hp _) _⟩)
    case psmulb => cases h; exact .inr (.inl ⟨_, _, rfl, fun hp => Point.smul_onCurve Point.base_onCurve _⟩)
    case pdec =>
      cases hd : decodePoint st.strict st.dbuf <;> rw [hd] at h <;> cases h
      exact .inr (.inl ⟨_, _, rfl, fun hp => decodePoint_onCurve hd⟩)
    case pset =>
      split at h <;> cases h
      next hc => exact .inr (.inl ⟨_, _, rfl, fun hp => hc⟩)
    case pconst =>
      split at h <;> cases h
      next v hv =>
      refine .inr (.inl ⟨_, _, rfl, fun hp => ?_⟩)
      unfold pointConstant at hv
      split at hv <;> cases hv
      · exact Point.neutral_onCurve
      · exact Point.base_onCurve
    all_goals (cases h; exact .inl ⟨_, _, rfl⟩)
  obtain ⟨out, he, hw⟩ := key
  rcases conclude_cases out st with ⟨st', ho, hc⟩ | ⟨c, ho, hc⟩
  · exact .inl ⟨st', he.trans hc, hw st' ho⟩
  · exact .inr ⟨c, he.trans hc⟩

/-! ### Acceptance -/

theorem acceptCommand_cases (w : Word) (st : State) :
    ((st.busy = true ∨ st.err = true) ∧ st.acceptCommand w = { st with lost := true }) ∨
    (st.busy = false ∧ st.err = false ∧ st.acceptCommand w = { st with latch := some w, cmdrb := w, busy := true }) := by
  unfold State.acceptCommand
  cases hb : st.busy <;> cases he : st.err <;> simp

/-! ### Host writes -/

theorem supported_iff (off : BitVec 8) (size : Nat) : supported off size = true ↔ size = 4 ∧ off.toNat % 4 = 0 := by
  simp [supported]

/-- Everything a host write can do. -/
theorem hostWrite_cases (off : BitVec 8) (size : Nat) (v : Word) (st : State) :
    st.hostWrite off size v = st ∨
    (off = 0x04#8 ∧ v.getLsbD 31 = true ∧ st.hostWrite off size v = st.resetUnit) ∨
    (st.busy = true ∧ st.hostWrite off size v = { st with lost := true }) ∨
    (off = 0x04#8 ∧ st.busy = false ∧
      st.hostWrite off size v = { st with strict := v.getLsbD 0, irqEn := v.getLsbD 1 }) ∨
    (off = 0x08#8 ∧ st.hostWrite off size v = st.clearStatus v) ∨
    (off = 0x0C#8 ∧ st.hostWrite off size v = st.acceptCommand v) ∨
    (0x40 ≤ off.toNat ∧ off.toNat < 0x60 ∧ st.busy = false ∧
      st.hostWrite off size v = { st with dbuf := setDbufWord st.dbuf ((off.toNat - 0x40) / 4) v }) := by
  unfold State.hostWrite State.writeRegister State.writeCtrl State.writeDbuf
  cases st.busy <;> (split_ifs <;> simp_all)

/-! A host write touches nothing outside the unit. -/

@[simp] theorem State.hostWrite_resetPin (off : BitVec 8) (size : Nat) (v : Word) (st : State) :
    (st.hostWrite off size v).resetPin = st.resetPin := by
  unfold State.hostWrite State.writeRegister State.writeCtrl State.writeDbuf State.acceptCommand State.clearStatus State.resetUnit
  split_ifs <;> rfl

@[simp] theorem State.hostWrite_bus (off : BitVec 8) (size : Nat) (v : Word) (st : State) :
    (st.hostWrite off size v).bus = st.bus := by
  unfold State.hostWrite State.writeRegister State.writeCtrl State.writeDbuf State.acceptCommand State.clearStatus State.resetUnit
  split_ifs <;> rfl

@[simp] theorem State.hostWrite_trace (off : BitVec 8) (size : Nat) (v : Word) (st : State) :
    (st.hostWrite off size v).trace = st.trace := by
  unfold State.hostWrite State.writeRegister State.writeCtrl State.writeDbuf State.acceptCommand State.clearStatus State.resetUnit
  split_ifs <;> rfl

/-- The turns to come do not matter to it. -/
theorem hostWrite_withBus (off : BitVec 8) (size : Nat) (v : Word) (st : State) (b : List Event) :
    State.hostWrite off size v { st with bus := b } = { st.hostWrite off size v with bus := b } := by
  unfold State.hostWrite State.writeRegister State.writeCtrl State.writeDbuf State.acceptCommand State.clearStatus State.resetUnit
  split_ifs <;> rfl

theorem hostTurn_live {st : State} (h : st.resetPin = false) (st' : State) : hostTurn st st' = .next st' := by
  simp [hostTurn, h]

/-! ### The unit's turn -/

theorem completion_cases (st : State) :
    (st.latch = none ∧ completion st = .fault .busyWithoutCommand) ∨
    (∃ w i, st.latch = some w ∧ decode w = .ok i ∧ completion st = exec i st) ∨
    (∃ w e, st.latch = some w ∧ decode w = .error e ∧ completion st = .next (st.takeFault .illegal)) := by
  unfold completion
  cases hl : st.latch with
  | none => exact .inl ⟨rfl, rfl⟩
  | some w =>
    cases hd : decode w with
    | ok i => exact .inr (.inl ⟨w, i, rfl, hd, by simp [hd]⟩)
    | error e => exact .inr (.inr ⟨w, e, rfl, hd, by simp [hd]⟩)

theorem unitTurn_idle {st : State} (h : st.busy = false) : unitTurn st = .next st := by simp [unitTurn, h]
theorem unitTurn_busy {st : State} (h : st.busy = true) : unitTurn st = completion st := by simp [unitTurn, h]

theorem step_nil {st : State} (h : st.bus = []) : step st = unitTurn st := by simp [step, h]
theorem step_cons {st : State} {e : Event} {rest : List Event} (h : st.bus = e :: rest) :
    step st = takeTurn e { st with bus := rest } := by simp [step, h]

/-- A turn leaves the turns that come after it as they were. -/
theorem takeTurn_bus {e : Event} {st t : State} (h : takeTurn e st = .next t) : t.bus = st.bus := by
  cases e with
  | resetAssert => cases h; rfl
  | resetRelease => cases h; rfl
  | read off size => simp only [takeTurn, hostTurn] at h; split at h <;> cases h; rfl
  | write off size v =>
    simp only [takeTurn, hostTurn] at h
    split at h <;> cases h
    simp
  | unitTurn =>
    simp only [takeTurn, unitTurn] at h
    split at h
    · rcases completion_cases st with ⟨-, e⟩ | ⟨w, i, -, -, e⟩ | ⟨w, e', -, -, e⟩ <;> rw [e] at h
      · cases h
      · rcases exec_cases i st with ⟨st', he, hw⟩ | ⟨c, he⟩ <;> rw [he] at h <;> cases h
        · rcases hw with ⟨r, v, rfl⟩ | ⟨r, v, rfl, -⟩ | ⟨r, v, rfl⟩ | ⟨v, rfl⟩ | ⟨v, rfl, -⟩ | rfl <;> rfl
        · rfl
      · cases h; rfl
    · cases h; rfl

end Sys2Proof.Machine
end

