-- ==== Sys2Proof/Laws/PerInstr.lean ====
section
/-! SUPPORT. Per command: its encoding is a word of its own row of the opcode map (spec/30_encoding.md R85), when it is well formed. -/

namespace Sys2Proof.Laws.RowMatch

/-- The well-formed command's word matches the row of the opcode map that bears its mnemonic. -/
def Statement (i : Instr) : Prop :=
  ∃ r ∈ opcodeTable, r.mnemonic = i.mnemonic ∧ (wellFormed i = true → r.matchesWord (encode i) = true)

/-- A register field under a mask that keeps its legal values. -/
@[simp] theorem regField_P (r : PReg) : regField r &&& 8#4 = 0#4 := by revert r; decide
@[simp] theorem regField_S (r : SReg) : regField r &&& 12#4 = 0#4 := by revert r; decide
theorem sel_F (sel : BitVec 12) (h : sel.toNat ≤ 3) : sel &&& 0xFFC#12 = 0#12 := by
  apply BitVec.eq_of_toNat_eq
  rw [BitVec.toNat_and]
  have : sel.toNat = 0 ∨ sel.toNat = 1 ∨ sel.toNat = 2 ∨ sel.toNat = 3 := by omega
  rcases this with e | e | e | e <;> rw [e] <;> decide
theorem sel_P (sel : BitVec 12) (h : sel.toNat ≤ 1) : sel &&& 0xFFE#12 = 0#12 := by
  apply BitVec.eq_of_toNat_eq
  rw [BitVec.toNat_and]
  have : sel.toNat = 0 ∨ sel.toNat = 1 := by omega
  rcases this with e | e <;> rw [e] <;> decide

theorem nop : Statement (.nop) := by
  refine ⟨⟨"NOP", commandWord 0x00#8 0#4 0#4 0#4 0x000#12, commandWord 0xFF#8 15#4 15#4 15#4 0xFFF#12⟩, by decide, rfl, fun h => ?_⟩
  rw [matchesWord_iff]
  simp [encode]

theorem fadd (a b c : FReg) : Statement (.fadd a b c) := by
  refine ⟨⟨"FADD", commandWord 0x01#8 0#4 0#4 0#4 0x000#12, commandWord 0xFF#8 0#4 0#4 0#4 0xFFF#12⟩, by decide, rfl, fun h => ?_⟩
  rw [matchesWord_iff]
  simp [encode]

theorem fsub (a b c : FReg) : Statement (.fsub a b c) := by
  refine ⟨⟨"FSUB", commandWord 0x02#8 0#4 0#4 0#4 0x000#12, commandWord 0xFF#8 0#4 0#4 0#4 0xFFF#12⟩, by decide, rfl, fun h => ?_⟩
  rw [matchesWord_iff]
  simp [encode]

theorem fmul (a b c : FReg) : Statement (.fmul a b c) := by
  refine ⟨⟨"FMUL", commandWord 0x03#8 0#4 0#4 0#4 0x000#12, commandWord 0xFF#8 0#4 0#4 0#4 0xFFF#12⟩, by decide, rfl, fun h => ?_⟩
  rw [matchesWord_iff]
  simp [encode]

theorem fneg (a b : FReg) : Statement (.fneg a b) := by
  refine ⟨⟨"FNEG", commandWord 0x04#8 0#4 0#4 0#4 0x000#12, commandWord 0xFF#8 0#4 0#4 15#4 0xFFF#12⟩, by decide, rfl, fun h => ?_⟩
  rw [matchesWord_iff]
  simp [encode]

theorem finv (a b : FReg) : Statement (.finv a b) := by
  refine ⟨⟨"FINV", commandWord 0x05#8 0#4 0#4 0#4 0x000#12, commandWord 0xFF#8 0#4 0#4 15#4 0xFFF#12⟩, by decide, rfl, fun h => ?_⟩
  rw [matchesWord_iff]
  simp [encode]

theorem fpow (a b : FReg) (c : SReg) : Statement (.fpow a b c) := by
  refine ⟨⟨"FPOW", commandWord 0x06#8 0#4 0#4 0#4 0x000#12, commandWord 0xFF#8 0#4 0#4 12#4 0xFFF#12⟩, by decide, rfl, fun h => ?_⟩
  rw [matchesWord_iff]
  simp [encode]

theorem fisneg (b : FReg) : Statement (.fisneg b) := by
  refine ⟨⟨"FISNEG", commandWord 0x07#8 0#4 0#4 0#4 0x000#12, commandWord 0xFF#8 15#4 0#4 15#4 0xFFF#12⟩, by decide, rfl, fun h => ?_⟩
  rw [matchesWord_iff]
  simp [encode]

theorem feq (b c : FReg) : Statement (.feq b c) := by
  refine ⟨⟨"FEQ", commandWord 0x08#8 0#4 0#4 0#4 0x000#12, commandWord 0xFF#8 15#4 0#4 0#4 0xFFF#12⟩, by decide, rfl, fun h => ?_⟩
  rw [matchesWord_iff]
  simp [encode]

theorem fld (a : FReg) : Statement (.fld a) := by
  refine ⟨⟨"FLD", commandWord 0x09#8 0#4 0#4 0#4 0x000#12, commandWord 0xFF#8 0#4 15#4 15#4 0xFFF#12⟩, by decide, rfl, fun h => ?_⟩
  rw [matchesWord_iff]
  simp [encode]

theorem fst (b : FReg) : Statement (.fst b) := by
  refine ⟨⟨"FST", commandWord 0x0A#8 0#4 0#4 0#4 0x000#12, commandWord 0xFF#8 15#4 0#4 15#4 0xFFF#12⟩, by decide, rfl, fun h => ?_⟩
  rw [matchesWord_iff]
  simp [encode]

theorem fconst (a : FReg) (sel : BitVec 12) : Statement (.fconst a sel) := by
  refine ⟨⟨"FCONST", commandWord 0x0B#8 0#4 0#4 0#4 0x000#12, commandWord 0xFF#8 0#4 15#4 15#4 0xFFC#12⟩, by decide, rfl, fun h => ?_⟩
  rw [matchesWord_iff]
  simp [encode, sel_F sel (by simpa [wellFormed] using h)]

theorem padd (a b c : PReg) : Statement (.padd a b c) := by
  refine ⟨⟨"PADD", commandWord 0x10#8 0#4 0#4 0#4 0x000#12, commandWord 0xFF#8 8#4 8#4 8#4 0xFFF#12⟩, by decide, rfl, fun h => ?_⟩
  rw [matchesWord_iff]
  simp [encode]

theorem pdbl (a b : PReg) : Statement (.pdbl a b) := by
  refine ⟨⟨"PDBL", commandWord 0x11#8 0#4 0#4 0#4 0x000#12, commandWord 0xFF#8 8#4 8#4 15#4 0xFFF#12⟩, by decide, rfl, fun h => ?_⟩
  rw [matchesWord_iff]
  simp [encode]

theorem pneg (a b : PReg) : Statement (.pneg a b) := by
  refine ⟨⟨"PNEG", commandWord 0x12#8 0#4 0#4 0#4 0x000#12, commandWord 0xFF#8 8#4 8#4 15#4 0xFFF#12⟩, by decide, rfl, fun h => ?_⟩
  rw [matchesWord_iff]
  simp [encode]

theorem psmul (a b : PReg) (c : SReg) : Statement (.psmul a b c) := by
  refine ⟨⟨"PSMUL", commandWord 0x13#8 0#4 0#4 0#4 0x000#12, commandWord 0xFF#8 8#4 8#4 12#4 0xFFF#12⟩, by decide, rfl, fun h => ?_⟩
  rw [matchesWord_iff]
  simp [encode]

theorem psmulb (a : PReg) (c : SReg) : Statement (.psmulb a c) := by
  refine ⟨⟨"PSMULB", commandWord 0x14#8 0#4 0#4 0#4 0x000#12, commandWord 0xFF#8 8#4 15#4 12#4 0xFFF#12⟩, by decide, rfl, fun h => ?_⟩
  rw [matchesWord_iff]
  simp [encode]

theorem penc (b : PReg) : Statement (.penc b) := by
  refine ⟨⟨"PENC", commandWord 0x15#8 0#4 0#4 0#4 0x000#12, commandWord 0xFF#8 15#4 8#4 15#4 0xFFF#12⟩, by decide, rfl, fun h => ?_⟩
  rw [matchesWord_iff]
  simp [encode]

theorem pdec (a : PReg) : Statement (.pdec a) := by
  refine ⟨⟨"PDEC", commandWord 0x16#8 0#4 0#4 0#4 0x000#12, commandWord 0xFF#8 8#4 15#4 15#4 0xFFF#12⟩, by decide, rfl, fun h => ?_⟩
  rw [matchesWord_iff]
  simp [encode]

theorem pchk (b c : FReg) : Statement (.pchk b c) := by
  refine ⟨⟨"PCHK", commandWord 0x17#8 0#4 0#4 0#4 0x000#12, commandWord 0xFF#8 15#4 0#4 0#4 0xFFF#12⟩, by decide, rfl, fun h => ?_⟩
  rw [matchesWord_iff]
  simp [encode]

theorem pset (a : PReg) (b c : FReg) : Statement (.pset a b c) := by
  refine ⟨⟨"PSET", commandWord 0x18#8 0#4 0#4 0#4 0x000#12, commandWord 0xFF#8 8#4 0#4 0#4 0xFFF#12⟩, by decide, rfl, fun h => ?_⟩
  rw [matchesWord_iff]
  simp [encode]

theorem pgetx (a : FReg) (b : PReg) : Statement (.pgetx a b) := by
  refine ⟨⟨"PGETX", commandWord 0x19#8 0#4 0#4 0#4 0x000#12, commandWord 0xFF#8 0#4 8#4 15#4 0xFFF#12⟩, by decide, rfl, fun h => ?_⟩
  rw [matchesWord_iff]
  simp [encode]

theorem pgety (a : FReg) (b : PReg) : Statement (.pgety a b) := by
  refine ⟨⟨"PGETY", commandWord 0x1A#8 0#4 0#4 0#4 0x000#12, commandWord 0xFF#8 0#4 8#4 15#4 0xFFF#12⟩, by decide, rfl, fun h => ?_⟩
  rw [matchesWord_iff]
  simp [encode]

theorem peq (b c : PReg) : Statement (.peq b c) := by
  refine ⟨⟨"PEQ", commandWord 0x1B#8 0#4 0#4 0#4 0x000#12, commandWord 0xFF#8 15#4 8#4 8#4 0xFFF#12⟩, by decide, rfl, fun h => ?_⟩
  rw [matchesWord_iff]
  simp [encode]

theorem pconst (a : PReg) (sel : BitVec 12) : Statement (.pconst a sel) := by
  refine ⟨⟨"PCONST", commandWord 0x1C#8 0#4 0#4 0#4 0x000#12, commandWord 0xFF#8 8#4 15#4 15#4 0xFFE#12⟩, by decide, rfl, fun h => ?_⟩
  rw [matchesWord_iff]
  simp [encode, sel_P sel (by simpa [wellFormed] using h)]

theorem sld (a : SReg) : Statement (.sld a) := by
  refine ⟨⟨"SLD", commandWord 0x20#8 0#4 0#4 0#4 0x000#12, commandWord 0xFF#8 12#4 15#4 15#4 0xFFF#12⟩, by decide, rfl, fun h => ?_⟩
  rw [matchesWord_iff]
  simp [encode]

theorem sst (b : SReg) : Statement (.sst b) := by
  refine ⟨⟨"SST", commandWord 0x21#8 0#4 0#4 0#4 0x000#12, commandWord 0xFF#8 15#4 12#4 15#4 0xFFF#12⟩, by decide, rfl, fun h => ?_⟩
  rw [matchesWord_iff]
  simp [encode]

end Sys2Proof.Laws.RowMatch
end

