-- ==== Sys2Proof/Laws/RunLaws.lean ====
section
/-! SUPPORT. Runs of the machine (`Host.Core.run` of `core`) one step at a time, and the polls of the issue protocol
(spec/42_scalar_control.md R185); when a state is the end of a run (R186). -/

namespace Sys2Proof.Machine

theorem run_succ {st st' : State} (h : step st = .next st') (k : Nat) : core.run (k + 1) st = core.run k st' := by
  have hc : core.step st = .next st' := h
  simp only [Host.Core.run]
  rw [hc]

/-- A run that answers a next state took a first step that did. -/
theorem run_next {st t : State} {k : Nat} (h : core.run (k + 1) st = .next t) :
    ∃ st', step st = .next st' ∧ core.run k st' = .next t := by
  cases hs : step st with
  | next st' => exact ⟨st', rfl, by rwa [run_succ hs] at h⟩
  | fault r =>
    have hc : core.step st = .fault r := hs
    simp only [Host.Core.run] at h
    rw [hc] at h
    cases h
  | refused r =>
    have hc : core.step st = .refused r := hs
    simp only [Host.Core.run] at h
    rw [hc] at h
    cases h

theorem run_add (b : Nat) : ∀ (a : Nat) (st u : State), core.run a st = .next u → core.run (a + b) st = core.run b u := by
  intro a
  induction a with
  | zero => intro st u h; cases h; simp
  | succ a ih =>
    intro st u h
    obtain ⟨st', h1, h2⟩ := run_next h
    rw [Nat.succ_add, run_succ h1]
    exact ih st' u h2

/-- Polls of STATUS change nothing but what is to come and the record of accesses, which each adds the same word to. -/
theorem run_polls : ∀ (n : Nat) (st : State) (rest : List Event), st.resetPin = false →
    st.bus = List.replicate n (.read 0x08#8 4) ++ rest →
    core.run n st = .next { st with
      bus := rest, trace := List.replicate n (Access.got 0x08#8 4 (st.hostRead 0x08#8 4)) ++ st.trace } := by
  intro n
  induction n with
  | zero =>
    intro st rest _ h
    simp at h
    subst h
    rfl
  | succ n ih =>
    intro st rest hr h
    rw [List.replicate_succ, List.cons_append] at h
    have hs : step st = .next
        ({ st with bus := List.replicate n (Event.read 0x08#8 4) ++ rest }.record (.got 0x08#8 4 (st.hostRead 0x08#8 4))) := by
      rw [step_cons h]
      simp [takeTurn, hostTurn, hr]
      rfl
    rw [run_succ hs, List.replicate_succ', List.append_assoc]
    exact ih _ rest hr rfl

/-- Polls that return BUSY = 1 do not bring the end of a run nearer. -/
theorem idleSeen_replicate {w : Word} (hw : w.getLsbD 0 = true) (n : Nat) (l : List Access) :
    idleSeen (List.replicate n (.got 0x08#8 4 w) ++ l) = idleSeen l := by
  induction n with
  | zero => rfl
  | succ n ih => simp [List.replicate_succ, idleSeen, hw, ih, -BitVec.getLsbD_eq_getElem]

/-- A state that a run reaches without a reset, first of all those at which R186's conditions hold, is the end of the run. -/
theorem runEndIn_of_run : ∀ (k m : Nat) (st e : State), core.run k st = .next e → e.runEnded = true →
    (∀ j < k, ∀ u, core.run j st = .next u → u.runEnded = false) → (st.bus.take k).any Event.resets = false → k ≤ m →
    st.runEndIn m = some e := by
  intro k
  induction k with
  | zero => intro m st e h h1 _ _ _; cases h; unfold State.runEndIn; rw [if_pos h1]
  | succ k ih =>
    intro m st e h h1 h2 h3 hm
    obtain ⟨m, rfl⟩ : ∃ m', m = m' + 1 := ⟨m - 1, by omega⟩
    obtain ⟨st', hs, h'⟩ := run_next h
    have hres : st.bus.head?.any Event.resets = false ∧ (st'.bus.take k).any Event.resets = false := by
      cases hb : st.bus with
      | nil =>
        rw [step_nil hb] at hs
        have ht : takeTurn .unitTurn st = .next st' := hs
        simp [takeTurn_bus ht, hb]
      | cons ev rest =>
        rw [step_cons hb] at hs
        rw [hb, List.take_succ_cons, List.any_cons, Bool.or_eq_false_iff] at h3
        rw [takeTurn_bus hs]
        simpa using h3
    unfold State.runEndIn
    simp only [h2 0 (by omega) st rfl, hres.1, hs]
    exact ih m st' e h' h1 (fun j hj u hu => h2 (j + 1) (by omega) u ((run_succ hs j).trans hu)) hres.2 (by omega)

end Sys2Proof.Machine
end

