-- ==== Sys2Proof/Tests/Slice0.lean ====
section
/-! SUPPORT. The model's own tests. Every expected value is the spec's: a word written out from a pattern of 30_encoding.md R85, or a
vector of 95_test_vectors.md or a rule's example, named in the comment. Then one witness for the hypotheses of each statement. -/

set_option Elab.async false

namespace Sys2Proof.Tests

open Sys2Proof Sys2Proof.Machine

/-! ### Helpers -/

/-- What a function reads in the next state; none where there is none. -/
def after {α : Type} (r : Result) (g : State → α) : Option α :=
  match r with
  | .next t => some (g t)
  | .fault _ => none
  | .refused _ => none

/-- One step that completes the command word `w`. -/
def runWord (s : State) (w : Nat) : Result := step (s.withFetchWord 32 w)

/-- The state after reset with F2 and F3 set. -/
def withF (x y : Nat) : State := (State.reset.setF 2 (Fe.ofNat x)).setF 3 (Fe.ofNat y)

/-- The state after reset with P2 and P3 set. -/
def withP (P Q : Point) : State := (State.reset.setP 2 P).setP 3 Q

/-- The state after reset with DBUF and STRICT set. -/
def withDbuf (v : Nat) (strict : Bool) : State := { State.reset with dbuf := BitVec.ofNat 256 v, strict := strict }

/-- A point given by its coordinates. -/
def pt (x y : Nat) : Point := ⟨Fe.ofNat x, Fe.ofNat y⟩

/-- The unit running the command `w`, with turns to come. -/
def running (w : Word) (bus : List Event) : State :=
  { State.reset with latch := some w, cmdrb := w, busy := true, bus := bus }

/-! ### Ill-formed terms are refused (R84, R91) -/

theorem test_illformed_fconst : wellFormed (.fconst 0 4#12) = false ∧ wellFormed (.fconst 0 3#12) = true := by decide
theorem test_illformed_pconst : wellFormed (.pconst 0 2#12) = false ∧ wellFormed (.pconst 0 1#12) = true := by decide
theorem test_illformed_fdiv : Pseudo.wellFormed (.fdiv 0 5 1 5) = false ∧ Pseudo.wellFormed (.fdiv 0 5 1 1) = true := by decide
theorem test_illformed_psub : Pseudo.wellFormed (.psub 0 5 1 5) = false ∧ Pseudo.wellFormed (.psub 0 5 1 1) = true := by decide

/-! ### A word of every row, its bits in the order of R85's pattern: op, a, b, c, imm -/

theorem test_decode_nop : decode 0b00000000000000000000000000000000#32 = .ok (.nop) := by decide
theorem test_decode_fadd : decode 0b00000001000100101111000000000000#32 = .ok (.fadd 1 2 15) := by decide
theorem test_decode_fsub : decode 0b00000010111100010010000000000000#32 = .ok (.fsub 15 1 2) := by decide
theorem test_decode_fmul : decode 0b00000011001101001000000000000000#32 = .ok (.fmul 3 4 8) := by decide
theorem test_decode_fneg : decode 0b00000100000111100000000000000000#32 = .ok (.fneg 1 14) := by decide
theorem test_decode_finv : decode 0b00000101100101100000000000000000#32 = .ok (.finv 9 6) := by decide
theorem test_decode_fpow : decode 0b00000110101001010011000000000000#32 = .ok (.fpow 10 5 3) := by decide
theorem test_decode_fisneg : decode 0b00000111000010110000000000000000#32 = .ok (.fisneg 11) := by decide
theorem test_decode_feq : decode 0b00001000000011000011000000000000#32 = .ok (.feq 12 3) := by decide
theorem test_decode_fld : decode 0b00001001110100000000000000000000#32 = .ok (.fld 13) := by decide
theorem test_decode_fst : decode 0b00001010000001110000000000000000#32 = .ok (.fst 7) := by decide
theorem test_decode_fconst : decode 0b00001011010000000000000000000010#32 = .ok (.fconst 4 2#12) := by decide
theorem test_decode_padd : decode 0b00010000000100100111000000000000#32 = .ok (.padd 1 2 7) := by decide
theorem test_decode_pdbl : decode 0b00010001011001010000000000000000#32 = .ok (.pdbl 6 5) := by decide
theorem test_decode_pneg : decode 0b00010010011100010000000000000000#32 = .ok (.pneg 7 1) := by decide
theorem test_decode_psmul : decode 0b00010011010000110010000000000000#32 = .ok (.psmul 4 3 2) := by decide
theorem test_decode_psmulb : decode 0b00010100010100000001000000000000#32 = .ok (.psmulb 5 1) := by decide
theorem test_decode_penc : decode 0b00010101000001100000000000000000#32 = .ok (.penc 6) := by decide
theorem test_decode_pdec : decode 0b00010110001100000000000000000000#32 = .ok (.pdec 3) := by decide
theorem test_decode_pchk : decode 0b00010111000010011010000000000000#32 = .ok (.pchk 9 10) := by decide
theorem test_decode_pset : decode 0b00011000001011001101000000000000#32 = .ok (.pset 2 12 13) := by decide
theorem test_decode_pgetx : decode 0b00011001111101000000000000000000#32 = .ok (.pgetx 15 4) := by decide
theorem test_decode_pgety : decode 0b00011010100001110000000000000000#32 = .ok (.pgety 8 7) := by decide
theorem test_decode_peq : decode 0b00011011000001110110000000000000#32 = .ok (.peq 7 6) := by decide
theorem test_decode_pconst : decode 0b00011100010100000000000000000001#32 = .ok (.pconst 5 1#12) := by decide
theorem test_decode_sld : decode 0b00100000001100000000000000000000#32 = .ok (.sld 3) := by decide
theorem test_decode_sst : decode 0b00100001000000100000000000000000#32 = .ok (.sst 2) := by decide

/-! ### The words of 95_test_vectors.md section 2.4 -/

/-- E1, E2 -/
theorem test_illegal_point_fields :
    decode 0x10823000#32 = .error .pointField ∧ decode 0x13124000#32 = .error .scalarField := by
  decide

/-- E3, E8 -/
theorem test_illegal_unused_fields :
    decode 0x04123000#32 = .error .unusedField ∧ decode 0x0B0F0000#32 = .error .unusedField := by
  decide

/-- E4 -/
theorem test_illegal_immediate : decode 0x01123001#32 = .error .immediate := by decide

/-- E5, E6 -/
theorem test_illegal_opcodes : decode 0x0C000000#32 = .error .opcode ∧ decode 0xFF000000#32 = .error .opcode := by decide

/-- E7 -/
theorem test_largest_point_fields : decode 0x1B077000#32 = .ok (.peq 7 7) := by decide

/-- F16, F30, through the host's entry -/
theorem test_table_word : decodeTableWord 32 0x06120000 = some (.fpow 1 2 0) ∧ decodeTableWord 32 0x0B400004 = none := by decide

/-! ### The field commands (section 2.1) -/

/-- F1 -/
theorem test_fadd_wraps : after (runWord (withF (q - 1) 1) 0x01123000) (fun t => (t.getF 1).val) = some 0 := by decide +kernel

/-- F4: one register as both sources and destination -/
theorem test_fadd_in_place :
    after (runWord (State.reset.setF 1 (Fe.ofNat 5)) 0x01111000) (fun t => (t.getF 1).val) =
      some 10 := by
  decide +kernel

/-- F5 -/
theorem test_fsub_wraps :
    after (runWord (withF 0 1) 0x02123000) (fun t => (t.getF 1).val) =
      some 57896044618658097711785492504343953926634992332820282019728792003956564819948 := by
  decide +kernel

/-- F6 -/
theorem test_fsub_order : after (runWord (withF 1 (q - 1)) 0x02123000) (fun t => (t.getF 1).val) = some 2 := by decide +kernel

/-- F8 -/
theorem test_fmul_reduces :
    after (runWord (withF (2 ^ 128) (2 ^ 128)) 0x03123000) (fun t => (t.getF 1).val) =
      some 38 := by
  decide +kernel

/-- F9 -/
theorem test_fmul_q_minus_one :
    after (runWord (withF (q - 1) (q - 1)) 0x03123000) (fun t => (t.getF 1).val) =
      some 1 := by
  decide +kernel

/-- F11 -/
theorem test_fneg_zero : after (runWord (withF 0 0) 0x04120000) (fun t => (t.getF 1).val) = some 0 := by decide +kernel

/-- F12 -/
theorem test_fneg_one : after (runWord (withF 1 0) 0x04120000) (fun t => (t.getF 1).val) = some (q - 1) := by decide +kernel

/-- F13 -/
theorem test_finv_two :
    after (runWord (withF 2 0) 0x05120000) (fun t => (t.getF 1).val) =
      some 28948022309329048855892746252171976963317496166410141009864396001978282409975 := by
  decide +kernel

/-- F15: F1 keeps 9, and STATUS is DONE, ERR, FLAG and ECODE 3 -/
theorem test_finv_zero_faults :
    after (runWord { (withF 0 0).setF 1 (Fe.ofNat 9) with flag := true } 0x05120000) (fun t => ((t.getF 1).val, t.statusWord)) =
      some (9, 0x0000030E#32) := by
  decide +kernel

/-- F19 -/
theorem test_fpow_fermat :
    after (runWord ((withF 2 0).setS 0 (BitVec.ofNat 256 (q - 1))) 0x06120000) (fun t => (t.getF 1).val) =
      some 1 := by
  decide +kernel

/-- F16 -/
theorem test_fpow_zero_zero : after (runWord (withF 0 0) 0x06120000) (fun t => (t.getF 1).val) = some 1 := by decide +kernel

/-- F21 -/
theorem test_fisneg_even :
    after (runWord ({ withF (q - 1) 0 with flag := true }) 0x07020000) (fun t => t.flag) =
      some false := by
  decide +kernel

/-- F22 -/
theorem test_fisneg_odd :
    after (runWord (State.reset.setF 2 curveD) 0x07020000) (fun t => t.flag) =
      some true := by
  decide +kernel

/-- F23 -/
theorem test_feq_differs :
    after (runWord ({ withF 5 6 with flag := true }) 0x08023000) (fun t => t.statusWord) =
      some 0x00000002#32 := by
  decide +kernel

/-- R109, example -/
theorem test_feq_equal : after (runWord (withF 5 5) 0x08023000) (fun t => t.statusWord) = some 0x0000000A#32 := by decide +kernel

/-- F25, STRICT = 1 -/
theorem test_fld_strict_rejects_q :
    after (runWord (withDbuf q true) 0x09100000) (fun t => ((t.getF 1).val, t.statusWord)) =
      some (0, 0x00000206#32) := by
  decide +kernel

/-- F27, STRICT = 0: two subtractions of q -/
theorem test_fld_reduces :
    after (runWord (withDbuf (2 ^ 256 - 1) false) 0x09100000) (fun t => (t.getF 1).val) =
      some 37 := by
  decide +kernel

/-- F28: DBUF0, DBUF6 and DBUF7 -/
theorem test_fst_words :
    after (runWord (withF (q - 1) 0) 0x0A020000) (fun t => (t.hostRead 0x40#8 4, t.hostRead 0x58#8 4, t.hostRead 0x5C#8 4)) =
      some (0xFFFFFFEC#32, 0xFFFFFFFF#32, 0x7FFFFFFF#32) := by
  decide +kernel

/-- F29 -/
theorem test_fconst_root :
    after (runWord State.reset 0x0B400003) (fun t => (t.getF 4).val) =
      some 19681161376707505956807079304988542015446066515923890162744021073123829784752 := by
  decide +kernel

/-- F30 -/
theorem test_fconst_selector_4 :
    after (runWord State.reset 0x0B400004) (fun t => ((t.getF 4).val, t.statusWord)) =
      some (0, 0x00000106#32) := by
  decide +kernel

/-! ### The point commands (section 2.2) -/

/-- P1: [2]B by its encoding, byte 0 lowest -/
theorem test_padd_encoding :
    after (runWord (withP basePoint basePoint) 0x10123000) (fun t => encodePoint (t.getP 1)) =
      some 0x2260CDF3092329C21DA25EE8C9A21F5697390F51643851560E5F46AE6AF8A3C9#256 := by
  decide +kernel

/-- P4 -/
theorem test_padd_low_order :
    after (runWord (withP basePoint (pt 0 (q - 1))) 0x10123000) (fun t => ((t.getP 1).x.val, (t.getP 1).y.val)) = some (q - 15112221349535400772501151409588531511454012693041857206046113283949847762202,
      q - 46316835694926478169428394003475163141307993866256225615783033603165251855960) := by
  decide +kernel

/-- R142, example: [2]B by its coordinates -/
theorem test_pdbl_base :
    after (runWord (withP basePoint neutral) 0x11120000) (fun t => ((t.getP 1).x.val, (t.getP 1).y.val)) = some (24727413235106541002554574571675588834622768167397638456726423682521233608206,
      15549675580280190176352668710449542251549572066445060580507079593062643049417) := by
  decide +kernel

/-- P5 -/
theorem test_pdbl_order_four :
    after (runWord (withP ⟨sqrtMinusOne, Fe.zero⟩ neutral) 0x11120000) (fun t => t.getP 1) =
      some (pt 0 (q - 1)) := by
  decide +kernel

/-- P7 -/
theorem test_pneg_encoding :
    after (runWord (withP basePoint neutral) 0x12120000) (fun t => encodePoint (t.getP 1)) =
      some 0xE666666666666666666666666666666666666666666666666666666666666658#256 := by
  decide +kernel

/-- P8 -/
theorem test_pneg_neutral :
    after (runWord (withP neutral neutral) 0x12120000) (fun t => t.getP 1) =
      some neutral := by
  decide +kernel

/-- P9 -/
theorem test_psmul_three :
    after (runWord ((withP basePoint neutral).setS 0 3#256) 0x13120000) (fun t => encodePoint (t.getP 1)) =
      some 0x1267B1D177EE69ABA126A18E60269EF79F16EC176724030402C3684878F5B4D4#256 := by
  decide +kernel

/-- P10 -/
theorem test_psmul_zero :
    after (runWord (withP basePoint basePoint) 0x13120000) (fun t => t.getP 1) =
      some neutral := by
  decide +kernel

/-- R145: [2]B, the point of R142's example -/
theorem test_psmulb_two :
    after (runWord (State.reset.setS 0 2#256) 0x14100000) (fun t => (t.getP 1).x.val) =
      some 24727413235106541002554574571675588834622768167397638456726423682521233608206 := by
  decide +kernel

/-- R145, corner case k = 0 -/
theorem test_psmulb_zero :
    after (runWord (State.reset.setP 1 basePoint) 0x14100000) (fun t => t.getP 1) =
      some neutral := by
  decide +kernel

/-- R146, example -/
theorem test_penc_base :
    after (runWord (withP basePoint neutral) 0x15020000) (fun t => t.dbuf) =
      some 0x6666666666666666666666666666666666666666666666666666666666666658#256 := by
  decide +kernel

/-- P18: (q - I, 0) -/
theorem test_penc_sign :
    after (runWord (withP ⟨Fe.neg sqrtMinusOne, Fe.zero⟩ neutral) 0x15020000) (fun t => t.dbuf) =
      some 0x8000000000000000000000000000000000000000000000000000000000000000#256 := by
  decide +kernel

/-- P19, and P27 with STRICT = 0: y is reduced -/
theorem test_pdec_points :
    after (runWord (withDbuf 0x6666666666666666666666666666666666666666666666666666666666666658 true) 0x16100000)
      (fun t => (t.getP 1, t.statusWord)) = some (basePoint, 0x00000002#32) ∧
    after (runWord (withDbuf (2 ^ 255 - 1) false) 0x16100000) (fun t => ((t.getP 1).x.val, (t.getP 1).y.val)) =
      some (24955915220342692964971208821014542627211739005308489835959708316178776387624, 18) := by
  decide +kernel

/-- P20 with STRICT = 1, where P1 keeps its reset value N, and P21 -/
theorem test_pdec_faults :
    after (runWord (withDbuf (1 + 2 ^ 255) true) 0x16100000) (fun t => (t.getP 1, t.statusWord)) =
      some (neutral, 0x00000406#32) ∧
    after (runWord (withDbuf 2 false) 0x16100000) (fun t => t.statusWord) = some 0x00000406#32 := by
  decide +kernel

/-- P28 -/
theorem test_pchk_off_curve :
    after (runWord ({ withF 1 1 with flag := true }) 0x17023000) (fun t => t.flag) =
      some false := by
  decide +kernel

/-- P29 -/
theorem test_pchk_on_curve :
    after (runWord ((withF 0 0).setF 2 sqrtMinusOne) 0x17023000) (fun t => t.flag) =
      some true := by
  decide +kernel

/-- P30 -/
theorem test_pset_off_curve :
    after (runWord ((withF 1 1).setP 1 basePoint) 0x18123000) (fun t => (t.getP 1, t.statusWord)) =
      some (basePoint, 0x00000506#32) := by
  decide +kernel

/-- R149, example -/
theorem test_pset_on_curve :
    after (runWord ((withF 0 0).setF 2 sqrtMinusOne) 0x18123000) (fun t => ((t.getP 1).x.val, (t.getP 1).y.val)) =
      some (19681161376707505956807079304988542015446066515923890162744021073123829784752, 0) := by
  decide +kernel

/-- R150, example -/
theorem test_pgetx_base :
    after (runWord (withP basePoint neutral) 0x19120000) (fun t => (t.getF 1).val) =
      some 15112221349535400772501151409588531511454012693041857206046113283949847762202 := by
  decide +kernel

/-- R151, example -/
theorem test_pgety_base :
    after (runWord (withP basePoint neutral) 0x1A120000) (fun t => (t.getF 1).val) =
      some 46316835694926478169428394003475163141307993866256225615783033603165251855960 := by
  decide +kernel

/-- P33: the y coordinates are equal -/
theorem test_peq_negative :
    after (runWord ({ withP basePoint (Point.neg basePoint) with flag := true }) 0x1B023000) (fun t => t.flag) =
      some false := by
  decide +kernel

/-- R152, equal points -/
theorem test_peq_equal :
    after (runWord (withP basePoint basePoint) 0x1B023000) (fun t => t.statusWord) =
      some 0x0000000A#32 := by
  decide +kernel

/-- P34 -/
theorem test_pconst_base :
    after (runWord State.reset 0x1C100001) (fun t => (t.getP 1).x.val) =
      some 15112221349535400772501151409588531511454012693041857206046113283949847762202 := by
  decide +kernel

/-- P35 -/
theorem test_pconst_selector_2 :
    after (runWord (State.reset.setP 1 basePoint) 0x1C100002) (fun t => (t.getP 1, t.ecode)) =
      some (basePoint, 1#4) := by
  decide +kernel

/-! ### The scalar commands and NOP (section 2.3) -/

/-- S1 -/
theorem test_sld_all_bits :
    after (runWord (withDbuf (2 ^ 256 - 1) true) 0x20300000) (fun t => (t.getS 3).toNat) =
      some (2 ^ 256 - 1) := by
  decide +kernel

/-- R181, example -/
theorem test_sst_three :
    after (runWord (State.reset.setS 1 3#256) 0x21010000) (fun t => (t.hostRead 0x40#8 4, t.hostRead 0x44#8 4)) =
      some (3#32, 0#32) := by
  decide +kernel

/-- S4 -/
theorem test_nop_status : after (runWord State.reset 0x00000000) (fun t => t.statusWord) = some 0x00000002#32 := by decide +kernel

/-- S5 -/
theorem test_illegal_status :
    after (runWord State.reset 0x00000001) (fun t => (t.statusWord, t.hostRead 0x0C#8 4)) =
      some (0x00000106#32, 1#32) := by
  decide +kernel

/-! ### STATUS, LOST, the interrupt and reset (section 2.5), one turn each -/

/-- T1 -/
theorem test_T1_running :
    ((State.reset.hostWrite 0x04#8 4 2#32).hostWrite 0x0C#8 4 0#32).hostRead 0x08#8 4 = 1#32 := by
  decide +kernel

/-- T2 -/
theorem test_T2_discarded :
    after (step (running 0#32 [.write 0x40#8 4 5#32])) (fun t => (t.hostRead 0x08#8 4, t.hostRead 0x40#8 4)) =
      some (0x00000011#32, 0#32) := by
  decide +kernel

/-- T3 -/
theorem test_T3_completion :
    after (step { running 0#32 [.unitTurn] with irqEn := true, lost := true }) (fun t => (t.hostRead 0x08#8 4, t.irq)) =
      some (0x00000012#32, true) := by
  decide +kernel

/-- T4 -/
theorem test_T4_cleared :
    after (step { State.reset with irqEn := true, done := true, lost := true, bus := [.write 0x08#8 4 0x12#32] })
      (fun t => (t.hostRead 0x08#8 4, t.irq)) = some (0#32, false) := by
  decide +kernel

/-- T5 -/
theorem test_T5_soft_reset :
    after (step (running 0#32 [.write 0x04#8 4 0x80000000#32]))
      (fun t => (t.hostRead 0x08#8 4, t.hostRead 0x04#8 4, t.hostRead 0x0C#8 4, t.latch)) = some (0#32, 1#32, 0#32, none) := by
  decide +kernel

/-- T6 -/
theorem test_T6_id :
    after (step { State.reset with bus := [.read 0x00#8 4] }) (fun t => t.trace) =
      some [.got 0x00#8 4 0x25510107#32] := by
  decide +kernel

/-- T7 -/
theorem test_T7_reserved : State.reset.hostRead 0x10#8 4 = 0#32 ∧ State.reset.hostRead 0x60#8 4 = 0#32 := by decide +kernel

/-- T8 -/
theorem test_T8_id_write : State.reset.hostWrite 0x00#8 4 0x1234#32 = State.reset := by decide +kernel

/-- 95_test_vectors.md program 3, the continuation -/
theorem test_fault_return :
    after (step { State.reset with
      done := true, err := true, flag := true, lost := true, ecode := 3#4, bus := [.write 0x08#8 4 0x16#32] }) (fun t => t.hostRead 0x08#8 4) = some 8#32 := by
  decide +kernel

/-- R240 -/
theorem test_reset_input :
    step { State.reset with resetPin := true, bus := [.read 0x00#8 4] } = .refused .hostAccessInReset ∧
      after (step (running 0#32 [.resetAssert])) (fun t => (t.busy, t.resetPin)) = some (false, true) := by
  exact ⟨rfl, by decide +kernel⟩

/-! ### The end of a run (42_scalar_control.md R186) -/

/-- A fault cleared after the end, and a reset after the end, change neither answer -/
theorem test_run_end_is_first :
    ({ State.reset with bus := issueTurns (encode (.finv 0 0)) 1 ++ [.write 0x08#8 4 0x06#32] } : State).runFaulted = true ∧
    ({ State.reset with bus := issueTurns (encode .nop) 1 ++ [.resetAssert] } : State).safeEnd = true := by
  decide +kernel

/-- A run cut short by a reset, hard or soft, has no end (notes/assumptions/17.md) -/
theorem test_run_cut_short :
    ({ State.reset with bus := [.write 0x0C#8 4 0#32, .resetAssert, .resetRelease, .read 0x08#8 4] } : State).runEnd = none ∧
    ({ State.reset with bus := [.write 0x0C#8 4 0#32, .write 0x04#8 4 0x80000000#32, .read 0x08#8 4] } : State).safeEnd = false := by
  decide +kernel

/-! ### Witnesses: for each statement with hypotheses, values that meet them, one for each clause at the ends of its range -/

/-- A busy unit with B in P1, meeting the invariant. -/
def running1 (bus : List Event) : State := (running 0x10011000#32 bus).setP 1 basePoint

theorem running1_inv (bus : List Event) : (running1 bus).Inv := by
  refine ⟨fun r => ?_, ⟨fun _ => rfl, fun h => by simp [running1, running, State.reset] at h, fun _ => rfl⟩, rfl,
    fun h => by simp [running1, running, State.reset] at h⟩
  by_cases h : r = 1
  · rw [h, running1, State.getP_setP_self]; exact Point.base_onCurve
  · rw [running1, State.getP_setP_ne _ h, show (running 0x10011000#32 bus).getP r = neutral by simp [running, State.reset, State.getP]]
    exact Point.neutral_onCurve

theorem witness_FinvGivesTheInverseOrFaults :
    (State.reset.getF 2).val = 0 ∧ ((withF 1 (q - 1)).getF 2).val ≠ 0 ∧ ((withF 1 (q - 1)).getF 3).val ≠ 0 := by
  decide +kernel

theorem witness_FldRejectsOrReduces :
    (q ≤ (withDbuf q true).dbuf.toNat ∧ (withDbuf q true).strict = true) ∧
    ¬ (q ≤ (withDbuf (q - 1) true).dbuf.toNat ∧ (withDbuf (q - 1) true).strict = true) ∧
    ¬ (q ≤ (withDbuf (2 ^ 256 - 1) false).dbuf.toNat ∧ (withDbuf (2 ^ 256 - 1) false).strict = true) := by
  decide +kernel

theorem witness_FstGivesLittleEndianEncoding : 0 < 32 ∧ 31 < 32 := by decide

theorem witness_FconstLoadsTheSelectedConstant :
    (0#12).toNat ≤ 3 ∧ (3#12).toNat ≤ 3 ∧ 3 < (4#12).toNat ∧ 3 < (4095#12).toNat := by decide

theorem witness_PaddGivesTheUnifiedSum :
    ((withP basePoint neutral).getP 2).x.val = 15112221349535400772501151409588531511454012693041857206046113283949847762202 ∧
    ((withP basePoint neutral).getP 3).y.val = 1 ∧
    onCurve ((withP basePoint neutral).getP 2).x ((withP basePoint neutral).getP 2).y = true ∧
    onCurve ((withP basePoint neutral).getP 3).x ((withP basePoint neutral).getP 3).y = true := by
  decide +kernel

theorem witness_PsmulGivesTheKFoldSum :
    onCurve ((withP basePoint neutral).getP 2).x ((withP basePoint neutral).getP 2).y = true := by decide +kernel

/-- y = q in strict mode; no root for y = 2; x = 0 with sign 1 in strict mode (y = 1), in permissive mode, and with sign 0; and B. -/
theorem witness_PdecRecoversThePointOrFaults :
    (q ≤ (withDbuf q true).dbuf.toNat % 2 ^ 255 ∧ (withDbuf q true).strict = true) ∧
    (¬ (q ≤ (withDbuf 2 true).dbuf.toNat % 2 ^ 255 ∧ (withDbuf 2 true).strict = true) ∧
      (xSquared (Fe.ofNat 2)).val * (curveD.val * 2 * 2 + 1) % q = (2 * 2 + (q - 1)) % q ∧
      ∀ x : Fe, x.val * x.val % q ≠ (xSquared (Fe.ofNat 2)).val) ∧
    ((xSquared (Fe.ofNat 1)).val = 0 ∧ (withDbuf (1 + 2 ^ 255) true).dbuf.getLsbD 255 = true ∧
      (withDbuf (1 + 2 ^ 255) false).strict = false ∧ (withDbuf 1 true).dbuf.getLsbD 255 = false) ∧
    ((xSquared basePoint.y).val ≠ 0 ∧ basePoint.x.val * basePoint.x.val % q = (xSquared basePoint.y).val) := by
  refine ⟨by decide +kernel, ⟨by decide +kernel, by decide +kernel, fun x h => ?_⟩, by decide +kernel, by decide +kernel⟩
  exact Fe.no_root_of_sqrt (show Fe.sqrt (xSquared (Fe.ofNat 2)) = none by decide +kernel) x (Fin.ext h)

theorem witness_PchkTestsTheCurveEquation : ∃ x y : Int, x = (State.reset.getF 0).val ∧ y = (State.reset.getF 1).val :=
  ⟨_, _, rfl, rfl⟩

/-- (0, 1) is on the curve and (1, 1) is not. -/
theorem witness_PsetWritesOnlyCurvePoints :
    ((0 : Int) = ((withF 0 1).getF 2).val ∧ (1 : Int) = ((withF 0 1).getF 3).val ∧
      (-(0 : Int) ^ 2 + 1 ^ 2 - 1 - (curveD.val : Int) * 0 ^ 2 * 1 ^ 2) % (q : Int) = 0) ∧
    ((1 : Int) = ((withF 1 1).getF 2).val ∧ (1 : Int) = ((withF 1 1).getF 3).val ∧
      (-(1 : Int) ^ 2 + 1 ^ 2 - 1 - (curveD.val : Int) * 1 ^ 2 * 1 ^ 2) % (q : Int) ≠ 0) := by
  decide +kernel

theorem witness_PconstLoadsTheSelectedPoint :
    (0#12).toNat ≤ 1 ∧ (1#12).toNat ≤ 1 ∧ 1 < (2#12).toNat ∧ 1 < (4095#12).toNat := by decide

theorem witness_NopOnlyCompletes :
    (opField 0x00000001#32 = 0x00#8 ∧ 0x00000001#32 ≠ 0x00000000#32) ∧ ({ State.reset with err := true, ecode := 3#4 }).err = true := by
  decide

theorem witness_DecodeAfterEncodeGivesTheCommand :
    wellFormed (.fconst 15 3#12) = true ∧ wellFormed (.pconst 7 1#12) = true ∧ wellFormed (.psmul 7 7 3) = true := by decide

theorem witness_EncodeAfterDecodeGivesTheWord :
    decode 0x00000000#32 = .ok .nop ∧ decode 0x21030000#32 = .ok (.sst 3) := by decide

theorem witness_StepRunsTheAcceptedCommand :
    ((running 0x10011000#32 [.unitTurn]).busy = true ∧ (running 0x10011000#32 [.unitTurn]).latch = some 0x10011000#32 ∧
      decode 0x10011000#32 = .ok (.padd 0 1 1) ∧ (running 0x10011000#32 [.unitTurn]).bus = [.unitTurn]) ∧
    ((running 0x10011000#32 []).busy = true ∧ (running 0x10011000#32 []).bus = []) ∧
    ({ State.reset with bus := [.unitTurn] }).busy = false ∧ State.reset.bus = [] := by
  decide +kernel

theorem witness_IllegalWordCompletesWithFault :
    (∀ r ∈ opcodeTable, 0x00000001#32 &&& r.mask ≠ r.value) ∧ (∀ r ∈ opcodeTable, 0xFFFFFFFF#32 &&& r.mask ≠ r.value) ∧
    State.reset.busy = false ∧ State.reset.err = false ∧
    (running 0x00000001#32 [.unitTurn]).busy = true ∧ (running 0x00000001#32 [.unitTurn]).latch = some 0x00000001#32 ∧
    (running 0x00000001#32 []).busy = true ∧ (running 0x00000001#32 []).bus = [] := by
  decide +kernel

theorem witness_FaultingCommandsWriteNothing :
    State.reset.err = false ∧ after (exec (.finv 1 2) State.reset) (fun t => t.err) = some true := by decide +kernel

theorem witness_OnlyPredicatesWriteFlag :
    State.reset.flag = false ∧ after (exec (.feq 0 0) State.reset) (fun t => t.flag) = some true := by decide +kernel

theorem witness_StrictReachesOnlyTheDecoders :
    (∀ a, (Instr.sld 3) ≠ .fld a) ∧ (∀ a, (Instr.sld 3) ≠ .pdec a) ∧ ∃ t, exec (.sld 3) State.reset = .next t :=
  ⟨by simp, by simp, _, rfl⟩

/-- The busy unit's next step completes PADD P0, P1, P1. -/
theorem witness_EveryStepKeepsTheInvariant : (running1 []).Inv ∧ ∃ t, step (running1 []) = .next t :=
  ⟨running1_inv [], _, rfl⟩

theorem held_inv (bus : List Event) : ({ State.reset with resetPin := true, bus := bus } : State).Inv := by
  refine ⟨fun r => ?_, ⟨fun _ => rfl, fun h => by simp [State.reset] at h, fun _ => rfl⟩, rfl, fun _ => rfl⟩
  rw [show ({ State.reset with resetPin := true, bus := bus } : State).getP r = neutral by simp [State.reset, State.getP]]
  exact Point.neutral_onCurve

theorem witness_InvariantStatesAlwaysStep :
    (running1 [.write 0x04#8 4 0#32]).Inv ∧ ({ State.reset with resetPin := true, bus := [.read 0x08#8 4] } : State).Inv :=
  ⟨running1_inv _, held_inv _⟩

theorem witness_HardwareResetHoldsTheUnit :
    (running1 [.resetAssert]).bus = [.resetAssert] ∧ (running1 [.resetRelease]).bus = [.resetRelease] ∧
    ({ State.reset with resetPin := true, bus := [.unitTurn] } : State).Inv ∧
    ({ State.reset with resetPin := true, bus := [.write 0x04#8 4 0#32] } : State).resetPin = true ∧
    ({ State.reset with resetPin := true, bus := [.read 0xFF#8 1] } : State).bus = [.read 0xFF#8 1] :=
  ⟨rfl, rfl, held_inv _, rfl, rfl⟩

theorem witness_CtrlReadsWritesAndSoftReset :
    (0x7FFFFFFF#32).getLsbD 31 = false ∧ (0x80000000#32).getLsbD 31 = true ∧ (running1 []).busy = true ∧ State.reset.busy = false := by
  decide +kernel

theorem witness_CmdWriteIsAcceptedOrDiscarded :
    (running1 []).busy = true ∧ ({ State.reset with err := true, ecode := 5#4 } : State).err = true ∧
    (State.reset.busy = false ∧ State.reset.err = false) ∧ (0x00000004#32).getLsbD 2 = true := by
  decide +kernel

/-- The offsets at the ends of each clause; each falls under one clause alone. -/
theorem witness_WritesWhileBusyAreDiscarded :
    (running1 []).busy = true ∧
    (∀ off ∈ [0x0C#8, 0x04#8, 0x40#8, 0x5C#8], off.toNat % 4 = 0 ∧
      (off = 0x0C#8 ∨ (off = 0x04#8 ∧ (0x00000003#32).getLsbD 31 = false) ∨ (0x40 ≤ off.toNat ∧ off.toNat ≤ 0x5C)) ∧
      off ≠ 0x08#8 ∧ ¬ (off = 0x00#8 ∨ (0x10 ≤ off.toNat ∧ off.toNat ≤ 0x3C) ∨ 0x60 ≤ off.toNat)) ∧
    (∀ off ∈ [0x00#8, 0x10#8, 0x3C#8, 0x60#8, 0xFC#8], off.toNat % 4 = 0 ∧
      (off = 0x00#8 ∨ (0x10 ≤ off.toNat ∧ off.toNat ≤ 0x3C) ∨ 0x60 ≤ off.toNat) ∧
      off ≠ 0x08#8 ∧ ¬ (off = 0x0C#8 ∨ off = 0x04#8 ∨ (0x40 ≤ off.toNat ∧ off.toNat ≤ 0x5C))) := by
  decide +kernel

theorem witness_DbufWordsAreLittleEndianSlices : 0 < 32 ∧ 31 < 32 ∧ 0 < 8 ∧ 7 < 8 ∧ State.reset.busy = false := by decide +kernel

theorem witness_ReservedAndUnsupportedAccessesDoNothing :
    (1 ≠ 4 ∨ (0x0C#8).toNat % 4 ≠ 0) ∧ (4 ≠ 4 ∨ (0x41#8).toNat % 4 ≠ 0) ∧
    (0x10 ≤ (0x10#8).toNat ∧ (0x10#8).toNat < 0x40) ∧ (0x10 ≤ (0x3F#8).toNat ∧ (0x3F#8).toNat < 0x40) ∧
    0x60 ≤ (0x60#8).toNat ∧ 0x60 ≤ (0xFF#8).toNat := by
  decide

theorem witness_ReadsHaveNoSideEffects :
    State.reset.resetPin = false ∧ ({ State.reset with bus := [.read 0x08#8 4] } : State).bus = .read 0x08#8 4 :: [] ∧
    ({ State.reset with bus := [.read 0x08#8 4, .read 0x08#8 4] } : State).bus = .read 0x08#8 4 :: .read 0x08#8 4 :: [] ∧
    ({ State.reset with bus := [.write 0x04#8 4 2#32] } : State).bus = .write 0x04#8 4 2#32 :: [] :=
  ⟨rfl, rfl, rfl, rfl⟩

theorem witness_IrqFollowsDoneWhenEnabled :
    (∃ t, exec .nop State.reset = .next t) ∧ (0x00000002#32).getLsbD 1 = true ∧ (0x00000001#32).getLsbD 31 = false ∧
    (0x00000001#32).getLsbD 1 = false ∧ State.reset.busy = false :=
  ⟨⟨_, rfl⟩, by decide, by decide, by decide, rfl⟩

theorem witness_RunningCommandSeesNoLaterWrite :
    (running1 [.write 0x40#8 4 5#32]).busy = true ∧ (running1 [.write 0x40#8 4 5#32]).bus = [.write 0x40#8 4 5#32] ∧
    (Event.write 0x40#8 4 5#32 ≠ .unitTurn ∧ Event.write 0x40#8 4 5#32 ≠ .resetAssert ∧ Event.write 0x40#8 4 5#32 ≠ .resetRelease) ∧
    (∀ size v, Event.write 0x40#8 4 5#32 = .write 0x04#8 size v → v.getLsbD 31 = false) ∧
    ∃ t, step (running1 [.write 0x40#8 4 5#32]) = .next t :=
  ⟨rfl, rfl, by simp, by simp, _, rfl⟩

theorem witness_EveryRunEndsIdle :
    ((running1 []).Inv ∧ ∃ t, core.run 1 (running1 []) = .next t) ∧
    ∃ e, ({ State.reset with bus := issueTurns (encode .nop) 1 } : State).runEnd = some e :=
  ⟨⟨running1_inv [], _, rfl⟩, Option.isSome_iff_exists.1 (by decide +kernel)⟩

theorem witness_IssueProtocolRunsTheCommand :
    wellFormed .nop = true ∧ ({ State.reset with bus := issueTurns (encode .nop) 2 ++ [] } : State).resetPin = false ∧
    ({ State.reset with bus := issueTurns (encode .nop) 2 ++ [] } : State).busy = false ∧
    ({ State.reset with bus := issueTurns (encode .nop) 2 ++ [] } : State).err = false ∧
    (∃ u, exec .nop { State.reset with bus := issueTurns (encode .nop) 2 ++ [] } = .next u) ∧
    ([] : List Event).any Event.issues = false :=
  ⟨rfl, rfl, rfl, rfl, ⟨_, rfl⟩, rfl⟩

theorem witness_DbufTransfersCarryTheWholeValue :
    ({ State.reset with bus := fillTurns 0#256 ++ [] } : State).busy = false ∧
    ({ State.reset with bus := fillTurns 0#256 ++ [] } : State).resetPin = false ∧
    ({ State.reset with bus := readBackTurns ++ [] } : State).resetPin = false :=
  ⟨rfl, rfl, rfl⟩

theorem witness_PseudoInstructionsDoWhatTheirNamesSay :
    (1 : PReg) ≠ 0 ∧ (1 : FReg) ≠ 0 ∧ ((withF 0 (q - 1)).getF 3).val ≠ 0 ∧ ((withF 0 (q - 1)).getF 2).val = 0 := by
  decide +kernel

theorem witness_PointSumIsAGroupLaw :
    onCurve neutral.x neutral.y = true ∧ onCurve basePoint.x basePoint.y = true ∧ onCurve sqrtMinusOne Fe.zero = true := by
  decide +kernel

theorem witness_EncodingsRoundTripInBothModes :
    onCurve (State.reset.getP 0).x (State.reset.getP 0).y = true ∧
    onCurve ((withP basePoint neutral).getP 2).x ((withP basePoint neutral).getP 2).y = true := by
  decide +kernel

end Sys2Proof.Tests
end

section
/-! The constants of spec/00_scope.md R8 and the facts of R9, read off the laws of `ZMod q` in Laws/FieldLaws.lean and
Laws/EncodingLaws.lean. -/

namespace Sys2Proof

/-- A natural number's remainder mod q is a canonical value exactly when the two agree as residues. -/
theorem Fe.mod_q_eq_val_iff (n : Nat) (a : Fe) : n % q = a.val ↔ (n : ZMod q) = a.toZ := by
  rw [← Fe.toZ_ofNat, Fe.toZ_inj, Fin.ext_iff, Fe.val_ofNat]

/-- I is 2^((q-1)/4) mod q (R8): the power is reached by square and multiply. -/
theorem sqrtMinusOne_val_eq_pow : sqrtMinusOne.val = 2 ^ ((q - 1) / 4) % q := by
  have hI : sqrtMinusOne = Fe.pow (Fe.ofNat 2) ((q - 1) / 4) := by decide +kernel
  have h2 : (Fe.ofNat 2).val = 2 := by decide
  rw [hI, Fe.val_pow _ (by decide), h2]

/-- No value's square is d (R9). -/
theorem curveD_ne_square (x : Fe) : x.val * x.val % q ≠ curveD.val := by
  intro h
  rw [Fe.mod_q_eq_val_iff, Nat.cast_mul] at h
  exact curveD_not_square ⟨x.toZ, h.symm⟩

/-- d*y^2 + 1 is never a multiple of q (R9). -/
theorem curveD_mul_sq_add_one_mod_ne_zero (y : Fe) : (curveD.val * (y.val * y.val) + 1) % q ≠ 0 := by
  intro h
  apply Machine.d_y_sq_add_one_ne_zero y
  have hz : ((curveD.val * (y.val * y.val) + 1 : Nat) : ZMod q) = Fe.zero.toZ := (Fe.mod_q_eq_val_iff _ Fe.zero).1 h
  simpa [Fe.natCast_val, pow_two] using hz

/-- Settles O57: the congruences of q and I^2 = -1 are numerals; the facts over every x and every y rest on d being a non-square
(`curveD_not_square`), the second one also on -1 being a square. -/
theorem fieldHasTheCompletenessCondition : Obligations.FieldHasTheCompletenessCondition :=
  ⟨by decide, by decide, by decide +kernel, curveD_ne_square, curveD_mul_sq_add_one_mod_ne_zero⟩

/-- Settles O58: the equations of q, d, B and l are numerals; the power that gives I is too large to write out. -/
theorem constantsMeetTheirEquations : Obligations.ConstantsMeetTheirEquations :=
  ⟨by decide, by decide +kernel, sqrtMinusOne_val_eq_pow, by decide +kernel, by decide +kernel, Point.base_onCurve, by decide⟩

end Sys2Proof
end

section
/-! The state and its window (spec/10_state.md): every step keeps the invariant (R21, R23, R35, R39, R240), what FLAG and STRICT
have to do with a command (R35, D48), and what the host reads and writes at ID, CTRL, STATUS and the reserved offsets
(R33 to R37, R55, R56). -/

namespace Sys2Proof.Machine

/-! ### Where the parts of the invariant come from -/

/-- R23 speaks of the P registers alone. -/
theorem State.PointsOnCurve.congr {st t : State} (h : st.PointsOnCurve) (hp : t.p = st.p) : t.PointsOnCurve := by
  intro r
  rw [show t.getP r = st.getP r by rw [State.getP, State.getP, hp]]
  exact h r

theorem State.PointsOnCurve.setP {st : State} (h : st.PointsOnCurve) (r : PReg) {v : Point} (hv : v.OnCurve) :
    (st.setP r v).PointsOnCurve := by
  intro r'
  by_cases hr : r' = r
  · subst hr; rw [State.getP_setP_self]; exact hv
  · rw [State.getP_setP_ne st hr]; exact h r'

theorem State.heldInReset_of_released {st : State} (h : st.resetPin = false) : st.HeldInReset := by
  intro hp
  rw [h] at hp
  cases hp

/-- A running unit is not held in reset: in reset BUSY is 0 (R240). -/
theorem State.HeldInReset.released_of_busy {st : State} (h : st.HeldInReset) (hb : st.busy = true) : st.resetPin = false := by
  by_contra hp
  rw [← h (by simpa using hp), State.resetUnit_busy] at hb
  cases hb

/-- The invariant speaks of the P registers, BUSY, ERR, ECODE, LATCH and the CMD read-back, and of the rest only in reset. -/
theorem State.Inv.congr {st t : State} (h : st.Inv) (hp : t.p = st.p) (hb : t.busy = st.busy) (he : t.err = st.err)
    (hc : t.ecode = st.ecode) (hl : t.latch = st.latch) (hr : t.cmdrb = st.cmdrb) (hheld : t.HeldInReset) : t.Inv where
  points := h.points.congr hp
  status := by unfold State.StatusConsistent; rw [hb, he, hc]; exact h.status
  latch := by unfold State.LatchConsistent; rw [hb, hl, hr]; exact h.latch
  reset := hheld

/-- The invariant does not speak of the turns to come. -/
theorem State.Inv.withBus {st : State} (h : st.Inv) (bus : List Event) : ({ st with bus := bus } : State).Inv :=
  h.congr rfl rfl rfl rfl rfl rfl fun hp => congrArg (fun s : State => { s with bus := bus }) (h.reset hp)

/-! ### Reset -/

theorem State.resetUnit_pointsOnCurve (st : State) : st.resetUnit.PointsOnCurve := fun r => by
  rw [State.getP_resetUnit]
  exact Point.neutral_onCurve

theorem State.resetUnit_inv (st : State) : st.resetUnit.Inv where
  points := st.resetUnit_pointsOnCurve
  status := ⟨fun _ => rfl, by simp, fun _ => rfl⟩
  latch := by simp [State.LatchConsistent]
  reset := fun _ => rfl

theorem State.driveReset_inv (level : Bool) (st : State) : (st.driveReset level).Inv :=
  st.resetUnit_inv.congr rfl rfl rfl rfl rfl rfl fun _ => st.resetUnit_driveReset level

/-- Settles O38: the state after reset is the one an edge of the reset input gives. -/
theorem resetMeetsTheInvariant : Obligations.ResetMeetsTheInvariant :=
  State.reset.driveReset_inv false

/-! ### The end of a command -/

/-- A completion leaves the unit idle with LATCH empty (R201). -/
theorem State.finish_inv {st : State} (hp : st.PointsOnCurve) (hs : st.StatusConsistent) (hr : st.resetPin = false) :
    st.finish.Inv where
  points := hp.congr rfl
  status := by
    obtain ⟨hok, hfault, -⟩ := hs
    exact ⟨hok, hfault, by simp⟩
  latch := by simp [State.LatchConsistent]
  reset := State.heldInReset_of_released hr

/-- A fault records a code of R200 (R202). -/
theorem State.takeFault_inv {st : State} (hp : st.PointsOnCurve) (hr : st.resetPin = false) (c : FaultCode) :
    (st.takeFault c).Inv where
  points := hp.congr rfl
  status := ⟨by simp, fun _ => c.code_bounds, by simp⟩
  latch := by simp [State.LatchConsistent]
  reset := State.heldInReset_of_released hr

/-- No command writes STATUS's fault bits or BUSY, or the reset input. -/
theorem Wrote.status_frame {i : Instr} {st st' : State} (h : Wrote i st st') :
    st'.busy = st.busy ∧ st'.err = st.err ∧ st'.ecode = st.ecode ∧ st'.resetPin = st.resetPin := by
  rcases h with ⟨r, v, rfl⟩ | ⟨r, v, rfl, -⟩ | ⟨r, v, rfl⟩ | ⟨v, rfl⟩ | ⟨v, rfl, -⟩ | rfl <;> exact ⟨rfl, rfl, rfl, rfl⟩

/-- A command puts only points of the curve into P registers (R23). -/
theorem Wrote.pointsOnCurve {i : Instr} {st st' : State} (h : Wrote i st st') (hp : st.PointsOnCurve) : st'.PointsOnCurve := by
  rcases h with ⟨r, v, rfl⟩ | ⟨r, v, rfl, hv⟩ | ⟨r, v, rfl⟩ | ⟨v, rfl⟩ | ⟨v, rfl, -⟩ | rfl
  · exact hp.congr rfl
  · exact hp.setP r (hv hp)
  · exact hp.congr rfl
  · exact hp.congr rfl
  · exact hp.congr rfl
  · exact hp

theorem exec_keeps_inv {i : Instr} {st t : State} (h : st.Inv) (hr : st.resetPin = false) (he : exec i st = .next t) : t.Inv := by
  rcases exec_cases i st with ⟨st', hx, hw⟩ | ⟨c, hx⟩ <;> rw [hx] at he <;> cases he
  · obtain ⟨hbusy, herr, hcode, hpin⟩ := hw.status_frame
    refine State.finish_inv (hw.pointsOnCurve h.points) ?_ (hpin.trans hr)
    unfold State.StatusConsistent
    rw [hbusy, herr, hcode]
    exact h.status
  · exact State.takeFault_inv h.points hr c

/-! ### The turns -/

theorem unitTurn_keeps_inv {st t : State} (h : st.Inv) (ht : unitTurn st = .next t) : t.Inv := by
  cases hb : st.busy with
  | false => rw [unitTurn_idle hb] at ht; cases ht; exact h
  | true =>
    have hr := h.reset.released_of_busy hb
    rw [unitTurn_busy hb] at ht
    rcases completion_cases st with ⟨-, hx⟩ | ⟨w, i, -, -, hx⟩ | ⟨w, e, -, -, hx⟩ <;> rw [hx] at ht
    · cases ht
    · exact exec_keeps_inv h hr ht
    · cases ht; exact State.takeFault_inv h.points hr _

/-- The bits a host clears: ECODE goes with ERR (R35). -/
theorem clearStatus_keeps_inv {st : State} (h : st.Inv) (hr : st.resetPin = false) (v : Word) : (st.clearStatus v).Inv where
  points := h.points.congr rfl
  status := by
    obtain ⟨hok, hfault, hbusy⟩ := h.status
    unfold State.StatusConsistent
    simp only [State.clearStatus_err, State.clearStatus_ecode, State.clearStatus_busy]
    cases v.getLsbD 2 with
    | false => simpa using ⟨hok, hfault, hbusy⟩
    | true => simp
  latch := h.latch
  reset := State.heldInReset_of_released hr

/-- An accepted word stands in LATCH and in the CMD read-back; it is accepted only while ERR = 0 (R201, R203). -/
theorem acceptCommand_keeps_inv {st : State} (h : st.Inv) (hr : st.resetPin = false) (w : Word) : (st.acceptCommand w).Inv := by
  rcases acceptCommand_cases w st with ⟨-, hx⟩ | ⟨-, herr, hx⟩ <;> rw [hx]
  · exact h.congr rfl rfl rfl rfl rfl rfl (State.heldInReset_of_released hr)
  · obtain ⟨hok, hfault, -⟩ := h.status
    exact ⟨h.points.congr rfl, ⟨hok, hfault, fun _ => herr⟩, rfl, State.heldInReset_of_released hr⟩

theorem hostWrite_keeps_inv {st : State} (h : st.Inv) (hr : st.resetPin = false) (off : BitVec 8) (size : Nat) (v : Word) :
    (st.hostWrite off size v).Inv := by
  have held {t : State} (ht : t.resetPin = st.resetPin) : t.HeldInReset := State.heldInReset_of_released (ht.trans hr)
  rcases hostWrite_cases off size v st with
    hx | ⟨-, -, hx⟩ | ⟨-, hx⟩ | ⟨-, -, hx⟩ | ⟨-, hx⟩ | ⟨-, hx⟩ | ⟨-, -, -, hx⟩ <;> rw [hx]
  · exact h
  · exact st.resetUnit_inv
  · exact h.congr rfl rfl rfl rfl rfl rfl (held rfl)
  · exact h.congr rfl rfl rfl rfl rfl rfl (held rfl)
  · exact clearStatus_keeps_inv h hr v
  · exact acceptCommand_keeps_inv h hr v
  · exact h.congr rfl rfl rfl rfl rfl rfl (held rfl)

/-- A host access that has a step is made with the reset input released. -/
theorem hostTurn_eq_next_iff {st st' t : State} : hostTurn st st' = .next t ↔ st.resetPin = false ∧ st' = t := by
  unfold hostTurn
  cases st.resetPin <;> simp

theorem record_keeps_inv {st : State} (h : st.Inv) (hr : st.resetPin = false) (a : Access) : (st.record a).Inv :=
  h.congr rfl rfl rfl rfl rfl rfl (State.heldInReset_of_released hr)

theorem takeTurn_keeps_inv {e : Event} {st t : State} (h : st.Inv) (ht : takeTurn e st = .next t) : t.Inv := by
  cases e with
  | write off size v =>
    obtain ⟨hr, rfl⟩ := hostTurn_eq_next_iff.1 ht
    exact record_keeps_inv (hostWrite_keeps_inv h hr off size v) (by rw [State.hostWrite_resetPin, hr]) _
  | read off size =>
    obtain ⟨hr, rfl⟩ := hostTurn_eq_next_iff.1 ht
    exact record_keeps_inv h hr _
  | unitTurn => exact unitTurn_keeps_inv h ht
  | resetAssert => cases ht; exact st.driveReset_inv true
  | resetRelease => cases ht; exact st.driveReset_inv false

/-- Settles O39: whichever turn a step takes keeps the invariant, and taking it off the turns to come does too. -/
theorem everyStepKeepsTheInvariant : Obligations.EveryStepKeepsTheInvariant := by
  intro s t h ht
  cases hb : s.bus with
  | nil => exact unitTurn_keeps_inv h (step_nil hb ▸ ht)
  | cons e rest => exact takeTurn_keeps_inv (h.withBus rest) (step_cons hb ▸ ht)

/-! ### FLAG and STRICT -/

/-- A command that is none of the four predicates leaves FLAG as it was (R35). -/
theorem Wrote.flag_eq_or_predicate {i : Instr} {st st' : State} (h : Wrote i st st') :
    st'.flag = st.flag ∨
      ((∃ b, i = .fisneg b) ∨ (∃ b c, i = .feq b c) ∨ (∃ b c, i = .pchk b c) ∨ (∃ b c, i = .peq b c)) := by
  rcases h with ⟨r, v, rfl⟩ | ⟨r, v, rfl, -⟩ | ⟨r, v, rfl⟩ | ⟨v, rfl⟩ | ⟨v, rfl, hi⟩ | rfl
  · exact .inl rfl
  · exact .inl rfl
  · exact .inl rfl
  · exact .inl rfl
  · exact .inr hi
  · exact .inl rfl

/-- Settles O36: neither a fault nor the end of a command writes FLAG, so a new FLAG is the pseudocode's write. -/
theorem onlyPredicatesWriteFlag : Obligations.OnlyPredicatesWriteFlag := by
  intro i s t he hne
  rcases exec_cases i s with ⟨st', hx, hw⟩ | ⟨c, hx⟩ <;> rw [hx] at he <;> cases he
  · exact hw.flag_eq_or_predicate.resolve_left hne
  · exact absurd rfl hne

/-- A completion does not look at STRICT: where the pseudocode's outcome differs in STRICT alone, so does the next state. -/
theorem conclude_withStrict {out out' : Except FaultCode State} {s t : State} {b : Bool} (h : conclude out s = .next t)
    (hout : out' = out.map fun u => { u with strict := b }) :
    conclude out' { s with strict := b } = .next { t with strict := b } := by
  subst hout
  cases out <;> cases h <;> rfl

/-- Settles O37: only the arms of FLD and PDEC read STRICT. Four other arms choose between a write and a fault, each on what STRICT
does not reach; the rest write. -/
theorem strictReachesOnlyTheDecoders : Obligations.StrictReachesOnlyTheDecoders := by
  intro i s t b hfld hpdec h
  cases i <;> simp only [exec,
    execFadd, execFsub, execFmul, execFneg, execFinv, execFpow, execFisneg, execFeq, execFst, execFconst, execPadd, execPdbl,
    execPneg, execPsmul, execPsmulb, execPenc, execPchk, execPset, execPgetx, execPgety, execPeq, execPconst, execSld, execSst,
    execNop] at h ⊢
  case fld a => exact absurd rfl (hfld a)
  case pdec a => exact absurd rfl (hpdec a)
  case finv a x => exact conclude_withStrict h (by rw [apply_ite (Except.map _)]; rfl)
  case pset a x y => exact conclude_withStrict h (by rw [apply_ite (Except.map _)]; rfl)
  case fconst a sel => exact conclude_withStrict h (by cases fieldConstant sel <;> rfl)
  case pconst a sel => exact conclude_withStrict h (by cases pointConstant sel <;> rfl)
  all_goals exact conclude_withStrict h rfl

/-! ### The registers of the window -/

theorem hostRead_unsupported {off : BitVec 8} {size : Nat} (h : ¬ (size = 4 ∧ off.toNat % 4 = 0)) (st : State) :
    st.hostRead off size = 0#32 := by
  rw [State.hostRead, if_neg (mt (supported_iff off size).1 h)]

theorem hostWrite_unsupported {off : BitVec 8} {size : Nat} (h : ¬ (size = 4 ∧ off.toNat % 4 = 0)) (v : Word) (st : State) :
    st.hostWrite off size v = st := by
  rw [State.hostWrite, if_neg (mt (supported_iff off size).1 h)]

theorem hostRead_supported {off : BitVec 8} (h : off.toNat % 4 = 0) (st : State) : st.hostRead off 4 = st.readRegister off := by
  rw [State.hostRead, if_pos ((supported_iff off 4).2 ⟨rfl, h⟩)]

theorem hostWrite_supported {off : BitVec 8} (h : off.toNat % 4 = 0) (v : Word) (st : State) :
    st.hostWrite off 4 v = st.writeRegister off v := by
  rw [State.hostWrite, if_pos ((supported_iff off 4).2 ⟨rfl, h⟩)]

/-- The offsets R50 gives no register: 0x10 to 0x3F, and 0x60 up. -/
def ReservedOffset (off : BitVec 8) : Prop := (0x10 ≤ off.toNat ∧ off.toNat < 0x40) ∨ 0x60 ≤ off.toNat

/-- No register stands at a reserved offset. -/
theorem ReservedOffset.no_register {off : BitVec 8} (h : ReservedOffset off) :
    off ≠ 0x00#8 ∧ off ≠ 0x04#8 ∧ off ≠ 0x08#8 ∧ off ≠ 0x0C#8 ∧ ¬ (0x40 ≤ off.toNat ∧ off.toNat < 0x60) := by
  unfold ReservedOffset at h
  refine ⟨?_, ?_, ?_, ?_, by omega⟩ <;> rintro rfl <;> revert h <;> decide

theorem readRegister_reserved {off : BitVec 8} (h : ReservedOffset off) (st : State) : st.readRegister off = 0#32 := by
  obtain ⟨hid, hctrl, hstatus, hcmd, hdbuf⟩ := h.no_register
  rw [State.readRegister, if_neg hid, if_neg hctrl, if_neg hstatus, if_neg hcmd, if_neg hdbuf]

theorem writeRegister_reserved {off : BitVec 8} (h : ReservedOffset off) (v : Word) (st : State) : st.writeRegister off v = st := by
  obtain ⟨-, hctrl, hstatus, hcmd, hdbuf⟩ := h.no_register
  rw [State.writeRegister, if_neg hctrl, if_neg hstatus, if_neg hcmd, if_neg hdbuf]

/-- Settles O49: an unsupported access reaches no register, and a supported one at a reserved offset finds none. -/
theorem reservedAndUnsupportedAccessesDoNothing : Obligations.ReservedAndUnsupportedAccessesDoNothing := by
  intro s off size v h
  by_cases hsup : size = 4 ∧ off.toNat % 4 = 0
  · obtain ⟨rfl, halign⟩ := hsup
    have hres : ReservedOffset off := by unfold ReservedOffset; omega
    exact ⟨(hostRead_supported halign s).trans (readRegister_reserved hres s),
      (hostWrite_supported halign v s).trans (writeRegister_reserved hres v s)⟩
  · exact ⟨hostRead_unsupported hsup s, hostWrite_unsupported hsup v s⟩

theorem hostRead_id (st : State) : st.hostRead 0x00#8 4 = idWord := hostRead_supported rfl st
theorem hostRead_ctrl (st : State) : st.hostRead 0x04#8 4 = st.ctrlWord := hostRead_supported rfl st
theorem hostRead_status (st : State) : st.hostRead 0x08#8 4 = st.statusWord := hostRead_supported rfl st
theorem hostWrite_ctrl (v : Word) (st : State) : st.hostWrite 0x04#8 4 v = st.writeCtrl v := hostWrite_supported rfl v st
theorem hostWrite_status (v : Word) (st : State) : st.hostWrite 0x08#8 4 v = st.clearStatus v := hostWrite_supported rfl v st

/-- Settles O43: ID is read from no piece of the state, and `State.writeRegister` has no case for its offset. -/
theorem idReadsItsConstant : Obligations.IdReadsItsConstant := by
  intro s size v
  refine ⟨hostRead_id s, ?_⟩
  by_cases hsup : size = 4 ∧ (0x00#8).toNat % 4 = 0
  · obtain ⟨rfl, halign⟩ := hsup
    exact hostWrite_supported halign v s
  · exact hostWrite_unsupported hsup v s

theorem getLsbD_ctrlWord (st : State) (k : Nat) :
    st.ctrlWord.getLsbD k = ((decide (k = 0) && st.strict) || (decide (k = 1) && st.irqEn)) := by
  simp only [State.ctrlWord, BitVec.getLsbD_append, BitVec.getLsbD_ofBool, BitVec.getLsbD_zero]
  match k with
  | 0 => simp
  | 1 => simp
  | k + 2 => simp

theorem writeCtrl_softReset {v : Word} (h : v.getLsbD 31 = true) (st : State) : st.writeCtrl v = st.resetUnit := by
  rw [State.writeCtrl, if_pos h]

theorem writeCtrl_busy {v : Word} (h : v.getLsbD 31 = false) {st : State} (hb : st.busy = true) :
    st.writeCtrl v = { st with lost := true } := by
  rw [State.writeCtrl, h, hb]; rfl

theorem writeCtrl_idle {v : Word} (h : v.getLsbD 31 = false) {st : State} (hb : st.busy = false) :
    st.writeCtrl v = { st with strict := v.getLsbD 0, irqEn := v.getLsbD 1 } := by
  rw [State.writeCtrl, h, hb]; rfl

/-- Settles O44: the bits of CTRL, and the three cases of a write to it. -/
theorem ctrlReadsWritesAndSoftReset : Obligations.CtrlReadsWritesAndSoftReset := by
  intro s v
  rw [hostRead_ctrl, hostWrite_ctrl]
  exact ⟨getLsbD_ctrlWord s, fun h hb => writeCtrl_busy h hb, fun h hb => writeCtrl_idle h hb, fun h => writeCtrl_softReset h s⟩

theorem getLsbD_statusWord (st : State) (k : Nat) :
    st.statusWord.getLsbD k =
      if k = 0 then st.busy else if k = 1 then st.done else if k = 2 then st.err else if k = 3 then st.flag
      else if k = 4 then st.lost else if 8 ≤ k ∧ k ≤ 11 then st.ecode.getLsbD (k - 8) else false := by
  simp only [State.statusWord, BitVec.getLsbD_append, BitVec.getLsbD_ofBool, BitVec.getLsbD_zero]
  rcases Nat.lt_or_ge k 8 with hlow | hhigh
  · interval_cases k <;> simp
  · obtain ⟨j, rfl⟩ := Nat.exists_eq_add_of_le' hhigh
    have hj : j < 4 ↔ j ≤ 3 := Nat.lt_succ_iff
    simp [hj]

/-- Settles O45: the bits of STATUS; the clearing write is `State.clearStatus`, whatever the unit is doing. -/
theorem statusBitsAndClearingWrites : Obligations.StatusBitsAndClearingWrites := by
  intro s v
  rw [hostRead_status, hostWrite_status]
  exact ⟨getLsbD_statusWord s, rfl⟩

/-! ### Reset values (R38) -/

/-- Settles O41: the register files are constant vectors; the rest is `State.reset` as it is written. -/
theorem resetGivesEveryValue : Obligations.ResetGivesEveryValue := by
  have hf (r : FReg) : State.reset.getF r = Fe.zero := by simp [State.reset, State.getF]
  have hp (r : PReg) : State.reset.getP r = neutral := State.getP_resetUnit State.reset r
  have hs (r : SReg) : State.reset.getS r = 0#256 := by simp [State.reset, State.getS]
  refine ⟨fun r => by rw [hf]; rfl, fun r => by rw [hp]; decide, fun r => by rw [hs]; rfl, rfl, rfl, rfl, rfl, rfl, rfl, rfl, rfl,
    rfl, rfl, rfl, hostRead_id _, ?_, ?_, rfl⟩
  · rw [hostRead_ctrl]; rfl
  · rw [hostRead_status]; rfl

/-! ### The host's turns (R20, R56) -/

theorem step_read {s : State} {off : BitVec 8} {size : Nat} {rest : List Event} (hr : s.resetPin = false)
    (hb : s.bus = .read off size :: rest) :
    step s = .next { s with bus := rest, trace := .got off size (s.hostRead off size) :: s.trace } := by
  rw [step_cons hb]
  exact hostTurn_live hr _

theorem step_write {s : State} {off : BitVec 8} {size : Nat} {v : Word} {rest : List Event} (hr : s.resetPin = false)
    (hb : s.bus = .write off size v :: rest) :
    step s = .next { s.hostWrite off size v with bus := rest, trace := .wrote off size v :: s.trace } := by
  rw [step_cons hb]
  refine (hostTurn_live hr _).trans ?_
  rw [hostWrite_withBus, State.record, State.hostWrite_trace]

/-- Settles O50: a read's step leaves all a read looks at, so the second of two reads returns the same. -/
theorem readsHaveNoSideEffects : Obligations.ReadsHaveNoSideEffects := by
  intro s off size v rest hr
  refine ⟨step_read hr, fun hb => (run_succ (step_read hr hb) 1).trans ?_, step_write hr⟩
  have second := step_read (rest := rest)
    (s := { s with bus := .read off size :: rest, trace := .got off size (s.hostRead off size) :: s.trace }) hr rfl
  exact run_succ second 0

end Sys2Proof.Machine
end

section
/-! The data buffer in the window (spec/20_memory.md R52, R53): which bits of DBUF stand where, and what a write replaces; and what
the host's accesses leave a running command to read (R57, R63; 70_reset_and_hazards.md R250). -/

namespace Sys2Proof.Machine

/-! ### The words of DBUF in the window -/

/-- ID, CTRL, STATUS and CMD stand below DBUF's words (R50). -/
theorem no_lower_register_of_le {off : BitVec 8} (h : 0x40 ≤ off.toNat) :
    off ≠ 0x00#8 ∧ off ≠ 0x04#8 ∧ off ≠ 0x08#8 ∧ off ≠ 0x0C#8 := by
  refine ⟨?_, ?_, ?_, ?_⟩ <;> rintro rfl <;> revert h <;> decide

theorem readRegister_dbuf {off : BitVec 8} (hlo : 0x40 ≤ off.toNat) (hhi : off.toNat < 0x60) (st : State) :
    st.readRegister off = dbufWord st.dbuf ((off.toNat - 0x40) / 4) := by
  obtain ⟨hid, hctrl, hstatus, hcmd⟩ := no_lower_register_of_le hlo
  rw [State.readRegister, if_neg hid, if_neg hctrl, if_neg hstatus, if_neg hcmd, if_pos ⟨hlo, hhi⟩]

theorem writeRegister_dbuf {off : BitVec 8} (hlo : 0x40 ≤ off.toNat) (hhi : off.toNat < 0x60) (v : Word) (st : State) :
    st.writeRegister off v = st.writeDbuf ((off.toNat - 0x40) / 4) v := by
  obtain ⟨-, hctrl, hstatus, hcmd⟩ := no_lower_register_of_le hlo
  rw [State.writeRegister, if_neg hctrl, if_neg hstatus, if_neg hcmd, if_pos ⟨hlo, hhi⟩]

theorem toNat_dbufOffset {i : Nat} (hi : i < 32) : (BitVec.ofNat 8 (0x40 + i)).toNat = 0x40 + i := by
  rw [BitVec.toNat_ofNat, Nat.mod_eq_of_lt (by omega)]

theorem readRegister_dbufWord (st : State) {j : Nat} (hj : j < 8) :
    st.readRegister (BitVec.ofNat 8 (0x40 + 4 * j)) = dbufWord st.dbuf j := by
  have hoff := toNat_dbufOffset (i := 4 * j) (by omega)
  rw [readRegister_dbuf (by omega) (by omega), hoff, Nat.add_sub_cancel_left, Nat.mul_div_cancel_left j (by decide)]

theorem hostRead_dbufWord (st : State) {j : Nat} (hj : j < 8) :
    st.hostRead (BitVec.ofNat 8 (0x40 + 4 * j)) 4 = dbufWord st.dbuf j := by
  have hoff := toNat_dbufOffset (i := 4 * j) (by omega)
  rw [hostRead_supported (by omega), readRegister_dbufWord st hj]

theorem hostWrite_dbufWord (st : State) {j : Nat} (hj : j < 8) (w : Word) :
    st.hostWrite (BitVec.ofNat 8 (0x40 + 4 * j)) 4 w = st.writeDbuf j w := by
  have hoff := toNat_dbufOffset (i := 4 * j) (by omega)
  rw [hostWrite_supported (by omega), writeRegister_dbuf (by omega) (by omega), hoff, Nat.add_sub_cancel_left,
    Nat.mul_div_cancel_left j (by decide)]

theorem writeDbuf_idle {st : State} (hb : st.busy = false) (j : Nat) (w : Word) :
    st.writeDbuf j w = { st with dbuf := setDbufWord st.dbuf j w } := by
  rw [State.writeDbuf, hb]; rfl

theorem toNat_dbufWord (v : Wide) (j : Nat) : (dbufWord v j).toNat = v.toNat / 2 ^ (32 * j) % 2 ^ 32 := by
  rw [dbufWord, BitVec.extractLsb'_toNat, Nat.shiftRight_eq_div_pow]

/-- Byte i of DBUF is byte i mod 4 of its word i / 4 (R52). -/
theorem extractLsb'_dbufWord (v : Wide) (i : Nat) :
    (dbufWord v (i / 4)).extractLsb' (8 * (i % 4)) 8 = v.extractLsb' (8 * i) 8 := by
  apply BitVec.eq_of_getLsbD_eq
  intro k hk
  have hword : 8 * (i % 4) + k < 32 := by omega
  have hbit : 32 * (i / 4) + (8 * (i % 4) + k) = 8 * i + k := by omega
  simp [dbufWord, hk, hword, hbit]

theorem windowByte_dbuf (st : State) {i : Nat} (hi : i < 32) :
    st.windowByte (BitVec.ofNat 8 (0x40 + i)) = st.dbuf.extractLsb' (8 * i) 8 := by
  have hword : 0x40 + i - (0x40 + i) % 4 = 0x40 + 4 * (i / 4) := by omega
  have hlane : (0x40 + i) % 4 = i % 4 := by omega
  rw [State.windowByte, toNat_dbufOffset hi, hword, hlane, readRegister_dbufWord st (by omega), extractLsb'_dbufWord]

/-- Settles O48: the offsets of the window reach DBUF by whole words (`hostRead_dbufWord`, `hostWrite_dbufWord`); the bytes are the
words' lanes, and the bits a write replaces are `getLsbD_setDbufWord`'s. -/
theorem dbufWordsAreLittleEndianSlices : Obligations.DbufWordsAreLittleEndianSlices := by
  intro s
  refine ⟨fun i hi => ?_, fun j hj => ?_, fun j w hj hb => ?_⟩
  · rw [windowByte_dbuf s hi, BitVec.extractLsb'_toNat, Nat.shiftRight_eq_div_pow, pow_mul]
    rfl
  · rw [hostRead_dbufWord s hj, toNat_dbufWord]
  · exact ⟨setDbufWord s.dbuf j w, (hostWrite_dbufWord s hj w).trans (writeDbuf_idle hb j w),
      fun n hn => getLsbD_setDbufWord s.dbuf w j n hn⟩

/-! ### While a command runs -/

/-- While BUSY = 1 a host write that is no soft reset reaches only the bits of STATUS a host clears, and LOST (R57, R250). -/
theorem hostWrite_busy_writes_only_status {st : State} (hb : st.busy = true) {off : BitVec 8} {v : Word}
    (hreset : off = 0x04#8 → v.getLsbD 31 = false) (size : Nat) :
    ∃ done err ecode lost,
      st.hostWrite off size v = { st with done := done, err := err, ecode := ecode, lost := lost } := by
  rcases hostWrite_cases off size v st with
    hx | ⟨hoff, hv, -⟩ | ⟨-, hx⟩ | ⟨-, hidle, -⟩ | ⟨-, hx⟩ | ⟨-, hx⟩ | ⟨-, -, hidle, -⟩
  · exact ⟨_, _, _, _, hx⟩
  · rw [hreset hoff] at hv; cases hv
  · exact ⟨_, _, _, _, hx⟩
  · rw [hb] at hidle; cases hidle
  · exact ⟨_, _, _, _, hx⟩
  · rcases acceptCommand_cases v st with ⟨-, hlost⟩ | ⟨hidle, -, -⟩
    · exact ⟨_, _, _, _, hx.trans hlost⟩
    · rw [hb] at hidle; cases hidle
  · rw [hb] at hidle; cases hidle

/-- Settles O52: a read changes nothing but the record of accesses, and a write reaches only bits of STATUS. -/
theorem runningCommandSeesNoLaterWrite : Obligations.RunningCommandSeesNoLaterWrite := by
  intro s t e rest hb hbus hunit hassert hrelease hreset ht
  rw [step_cons hbus] at ht
  cases e with
  | write off size v =>
    obtain ⟨-, rfl⟩ := hostTurn_eq_next_iff.1 ht
    have noSoftReset (hoff : off = 0x04#8) : v.getLsbD 31 = false := hreset size v (by rw [hoff])
    obtain ⟨done, err, ecode, lost, hx⟩ :=
      hostWrite_busy_writes_only_status (st := { s with bus := rest }) hb noSoftReset size
    rw [hx]
    exact ⟨rfl, rfl, rfl, rfl, rfl, rfl, rfl, rfl, hb, rfl, rfl⟩
  | read off size =>
    obtain ⟨-, rfl⟩ := hostTurn_eq_next_iff.1 ht
    exact ⟨rfl, rfl, rfl, rfl, rfl, rfl, rfl, rfl, hb, rfl, rfl⟩
  | unitTurn => exact absurd rfl hunit
  | resetAssert => exact absurd rfl hassert
  | resetRelease => exact absurd rfl hrelease

end Sys2Proof.Machine
end

section
/-! The command word (spec/30_encoding.md): the decoder and the encoder undo each other (R80 to R85), the decoder accepts what the
masks of the opcode map accept (R85, R86, R88), and what a word of no row does (R86; 60_exceptions.md R201). -/

namespace Sys2Proof

/-! ### The decoder and the encoder -/

theorem decode_encode {i : Instr} (h : wellFormed i = true) : decode (encode i) = .ok i := by
  cases i with
  | nop => simp [encode, decode, formatN_eq_ok_iff]
  | fadd | fsub | fmul | fpow | padd | psmul | pset => simp [encode, decode, formatRRR_eq_ok_iff]
  | fneg | finv | pdbl | pneg | pgetx | pgety => simp [encode, decode, formatRR_eq_ok_iff]
  | psmulb => simp [encode, decode, formatRC_eq_ok_iff]
  | fld | pdec | sld => simp [encode, decode, formatD_eq_ok_iff]
  | fisneg | fst | penc | sst => simp [encode, decode, formatS1_eq_ok_iff]
  | feq | pchk | peq => simp [encode, decode, formatS2_eq_ok_iff]
  | fconst a sel | pconst a sel =>
    have hsel := of_decide_eq_true h
    simp [encode, decode, formatI_eq_ok_iff, hsel]

/-- Settles O28: each format reads back the fields the encoder wrote; only the selectors' formats need the command well formed. -/
theorem decodeAfterEncodeGivesTheCommand : Obligations.DecodeAfterEncodeGivesTheCommand :=
  fun _ h => decode_encode h

/-- The five fields fix the word (R80); the opcode stands as the number `decode` branches on. -/
theorem commandWord_eq_iff {op : BitVec 8} {a b c : BitVec 4} {imm : BitVec 12} {w : Word} :
    commandWord op a b c imm = w ↔
      (opField w).toNat = op.toNat ∧ aField w = a ∧ bField w = b ∧ cField w = c ∧ immField w = imm := by
  conv_lhs => rw [eq_comm, ← commandWord_fields w]
  rw [commandWord_inj, BitVec.toNat_inj]

/-- The branches of `decode` are numbered in the order of its rows; those of one format read the same fields. -/
theorem wellFormed_and_encode_of_decode {w : Word} {i : Instr} (h : decode w = .ok i) : wellFormed i = true ∧ encode i = w := by
  unfold decode at h
  split at h
  all_goals
    rename_i hop
    simp only [formatN_eq_ok_iff, formatRRR_eq_ok_iff, formatRR_eq_ok_iff, formatRC_eq_ok_iff, formatD_eq_ok_iff,
      formatS1_eq_ok_iff, formatS2_eq_ok_iff, formatI_eq_ok_iff, readF_eq_ok_iff, readP_eq_ok_iff, readS_eq_ok_iff,
      reduceCtorEq] at h
  -- Format N
  case h_1 =>
    obtain ⟨ha, hb, hc, hi, rfl⟩ := h
    exact ⟨rfl, commandWord_eq_iff.2 ⟨hop, ha, hb, hc, hi⟩⟩
  -- Format I
  case h_12 | h_25 =>
    obtain ⟨_, ha, hb, hc, hsel, rfl⟩ := h
    exact ⟨decide_eq_true hsel, commandWord_eq_iff.2 ⟨hop, ha, hb, hc, rfl⟩⟩
  -- Formats D and S1: one operand
  case h_8 | h_10 | h_11 | h_18 | h_19 | h_26 | h_27 =>
    obtain ⟨_, ha, hb, hc, hi, rfl⟩ := h
    exact ⟨rfl, commandWord_eq_iff.2 ⟨hop, ha, hb, hc, hi⟩⟩
  -- Formats RR, RC and S2: two operands
  case h_5 | h_6 | h_9 | h_14 | h_15 | h_17 | h_20 | h_22 | h_23 | h_24 =>
    obtain ⟨_, _, ha, hb, hc, hi, rfl⟩ := h
    exact ⟨rfl, commandWord_eq_iff.2 ⟨hop, ha, hb, hc, hi⟩⟩
  -- Format RRR
  all_goals
    obtain ⟨_, _, _, ha, hb, hc, hi, rfl⟩ := h
    exact ⟨rfl, commandWord_eq_iff.2 ⟨hop, ha, hb, hc, hi⟩⟩

/-- Settles O29: a branch of the decoder that answers has read every field of the word, and the fields fix the word. -/
theorem encodeAfterDecodeGivesTheWord : Obligations.EncodeAfterDecodeGivesTheWord :=
  fun _ _ h => wellFormed_and_encode_of_decode h

/-- Settles O31: each word is evaluated. -/
theorem writtenOutWordsDecode : Obligations.WrittenOutWordsDecode := by
  unfold Obligations.WrittenOutWordsDecode
  decide

/-! ### The rows of the opcode map (R85) -/

theorem OpRow.matchesWord_iff_fields (r : OpRow) (w : Word) : r.matchesWord w = true ↔
    opField w &&& opField r.mask = opField r.value ∧ aField w &&& aField r.mask = aField r.value ∧
    bField w &&& bField r.mask = bField r.value ∧ cField w &&& cField r.mask = cField r.value ∧
    immField w &&& immField r.mask = immField r.value := by
  rw [← matchesWord_iff r.mnemonic, commandWord_fields, commandWord_fields]

theorem opField_mask_of_mem : ∀ r ∈ opcodeTable, opField r.mask = BitVec.allOnes 8 := by decide

theorem opField_eq_of_matchesWord {r : OpRow} (hr : r ∈ opcodeTable) {w : Word} (h : r.matchesWord w = true) :
    opField w = opField r.value := by
  obtain ⟨hop, -⟩ := (r.matchesWord_iff_fields w).1 h
  rwa [opField_mask_of_mem r hr, BitVec.and_allOnes] at hop

theorem opcodes_nodup : (opcodeTable.map fun r => opField r.value).Nodup := by decide

/-- A word is of at most one row: no opcode stands in two. -/
theorem eq_of_matchesWord {r r' : OpRow} (hr : r ∈ opcodeTable) (hr' : r' ∈ opcodeTable) {w : Word}
    (h : r.matchesWord w = true) (h' : r'.matchesWord w = true) : r = r' :=
  List.inj_on_of_nodup_map opcodes_nodup hr hr'
    ((opField_eq_of_matchesWord hr h).symm.trans (opField_eq_of_matchesWord hr' h'))

section
open Laws.RowMatch

theorem encode_matches_own_row (i : Instr) : Statement i := by
  cases i
  all_goals apply_rules [nop, fadd, fsub, fmul, fneg, finv, fpow, fisneg, feq, fld, Laws.RowMatch.fst, fconst, padd, pdbl, pneg,
    psmul, psmulb, penc, pdec, pchk, pset, pgetx, pgety, peq, pconst, sld, sst]

end

/-! ### What a row's mask asks of a field is what the decoder asks (R81, R84, R86) -/

theorem exists_readF_eq_ok (x : BitVec 4) : ∃ r, readF x = .ok r := ⟨_, rfl⟩
theorem exists_readP_eq_ok_iff (x : BitVec 4) : (∃ r, readP x = .ok r) ↔ x &&& 8#4 = 0#4 := by revert x; decide
theorem exists_readS_eq_ok_iff (x : BitVec 4) : (∃ r, readS x = .ok r) ↔ x &&& 12#4 = 0#4 := by revert x; decide
theorem and_unusedMask_eq_zero_iff (x : BitVec 4) : x &&& 15#4 = 0#4 ↔ x = 0#4 := by revert x; decide

/-- A value with no bit outside `m` is at most `m`. -/
theorem toNat_le_of_and_not_eq_zero {n : Nat} {x m : BitVec n} (h : x &&& ~~~m = 0#n) : x.toNat ≤ m.toNat := by
  have hx : x = x &&& m := by
    calc x = x &&& (m ||| ~~~m) := by simp
      _ = x &&& m := by rw [BitVec.and_or_distrib_left, h, BitVec.or_zero]
  rw [hx, BitVec.toNat_and]
  exact Nat.and_le_right

theorem and_noImmMask_eq_zero_iff (x : BitVec 12) : x &&& 0xFFF#12 = 0#12 ↔ x = 0#12 := by
  constructor
  · intro h
    exact BitVec.eq_of_toNat_eq (Nat.le_zero.1 (toNat_le_of_and_not_eq_zero (m := 0#12) h))
  · rintro rfl; rfl

theorem and_fconstMask_eq_zero_iff (x : BitVec 12) : x &&& 0xFFC#12 = 0#12 ↔ x.toNat ≤ 3 :=
  ⟨toNat_le_of_and_not_eq_zero (m := 3#12), Laws.RowMatch.sel_F x⟩

theorem and_pconstMask_eq_zero_iff (x : BitVec 12) : x &&& 0xFFE#12 = 0#12 ↔ x.toNat ≤ 1 :=
  ⟨toNat_le_of_and_not_eq_zero (m := 1#12), Laws.RowMatch.sel_P x⟩

/-- The decoder, written from the formats, accepts of each opcode the words its row's mask accepts: row by row the format's
conditions on the fields are the mask's. -/
theorem exists_decode_eq_ok_iff_matchesWord {r : OpRow} (hr : r ∈ opcodeTable) {w : Word} (hop : opField w = opField r.value) :
    (∃ i, decode w = .ok i) ↔ r.matchesWord w = true := by
  rw [OpRow.matchesWord_iff_fields, decode, hop]
  fin_cases hr
  all_goals
    simp only [opField, aField, bField, cField, immField, BitVec.reduceExtractLsb', BitVec.reduceToNat, BitVec.reduceAnd,
      BitVec.and_zero, formatN_eq_ok_iff, formatRRR_eq_ok_iff, formatRR_eq_ok_iff, formatRC_eq_ok_iff, formatD_eq_ok_iff,
      formatS1_eq_ok_iff, formatS2_eq_ok_iff, formatI_eq_ok_iff, exists_readF_eq_ok, exists_readP_eq_ok_iff,
      exists_readS_eq_ok_iff, and_unusedMask_eq_zero_iff, and_noImmMask_eq_zero_iff, and_fconstMask_eq_zero_iff,
      and_pconstMask_eq_zero_iff, ↓existsAndEq, exists_and_left, exists_and_right, and_true, true_and]

/-- Settles O30: a legal word is its command's encoding, which is of that command's row and of no other; a word of a row is
legal. -/
theorem decodingAgreesWithTheOpcodeMap : Obligations.DecodingAgreesWithTheOpcodeMap := by
  intro w
  cases hd : decode w with
  | ok i =>
    obtain ⟨hwf, rfl⟩ := wellFormed_and_encode_of_decode hd
    obtain ⟨r, hr, hname, hrow⟩ := encode_matches_own_row i
    have hm := hrow hwf
    exact .inl ⟨i, r, rfl, hr, hname, beq_iff_eq.1 hm, fun r' hr' hm' => eq_of_matchesWord hr' hr (beq_iff_eq.2 hm') hm⟩
  | error e =>
    refine .inr ⟨e, rfl, fun r hr hm => ?_⟩
    have hrow : r.matchesWord w = true := beq_iff_eq.2 hm
    obtain ⟨i, hi⟩ := (exists_decode_eq_ok_iff_matchesWord hr (opField_eq_of_matchesWord hr hrow)).2 hrow
    cases hd.symm.trans hi

theorem decode_eq_error_of_no_row {w : Word} (h : ∀ r ∈ opcodeTable, w &&& r.mask ≠ r.value) :
    ∃ e, decode w = .error e := by
  rcases decodingAgreesWithTheOpcodeMap w with ⟨-, r, -, hr, -, hm, -⟩ | ⟨e, hd, -⟩
  · exact absurd hm (h r hr)
  · exact ⟨e, hd⟩

end Sys2Proof

namespace Sys2Proof.Machine

/-! ### A word of no row at the unit (R86) -/

theorem hostWrite_cmd (w : Word) (st : State) : st.hostWrite 0x0C#8 4 w = st.acceptCommand w := hostWrite_supported rfl w st

theorem acceptCommand_idle {st : State} (hb : st.busy = false) (he : st.err = false) (w : Word) :
    st.acceptCommand w = { st with latch := some w, cmdrb := w, busy := true } := by
  simp [State.acceptCommand, hb, he]

theorem acceptCommand_faulted {st : State} (he : st.err = true) (w : Word) : st.acceptCommand w = { st with lost := true } := by
  simp [State.acceptCommand, he]

theorem unitTurn_illegal {st : State} {w : Word} {e : IllegalWord} (hb : st.busy = true) (hl : st.latch = some w)
    (hd : decode w = .error e) : unitTurn st = .next (st.takeFault .illegal) := by
  rw [unitTurn_busy hb, completion, hl]
  simp only [hd]

/-- Settles O33: acceptance does not look at the word, and the completion of a word that does not decode takes ILLEGAL. -/
theorem illegalWordCompletesWithFault : Obligations.IllegalWordCompletesWithFault := by
  intro s w rest hrow
  obtain ⟨e, hd⟩ := decode_eq_error_of_no_row hrow
  refine ⟨fun hb he => ?_, fun hb hl hbus => ?_, fun hb hl hbus => ?_⟩
  · rw [hostWrite_cmd, acceptCommand_idle hb he]
  · rw [step_cons hbus]
    exact unitTurn_illegal hb hl hd
  · rw [step_nil hbus]
    exact unitTurn_illegal hb hl hd

end Sys2Proof.Machine
end

section
/-! The pseudo-instructions (spec/30_encoding.md R91): what the commands of their expansions leave, one after the other. -/

namespace Sys2Proof

theorem Point.neg_neg (P : Point) : Point.neg (Point.neg P) = P := by
  rw [Point.neg, Point.neg, Machine.neg_neg_eq]

/-- The product with the inverse is the quotient (R106). -/
theorem Fe.mul_inv_mul_cancel {c : Fe} (h : c ≠ Fe.zero) (b : Fe) : Fe.mul (Fe.mul b (Fe.inv c)) c = b := by
  have := fact_q_prime
  rw [← Fe.toZ_inj, Fe.toZ_mul, Fe.toZ_mul, Fe.toZ_inv, inv_mul_cancel_right₀ (mt Fe.toZ_eq_zero.1 h)]

end Sys2Proof

namespace Sys2Proof.Machine

/-! ### The commands of the expansions -/

theorem exec_fmul (a b c : FReg) (st : State) :
    exec (.fmul a b c) st = .next (st.setF a (Fe.mul (st.getF b) (st.getF c))).finish := rfl

theorem exec_fneg (a b : FReg) (st : State) : exec (.fneg a b) st = .next (st.setF a (Fe.neg (st.getF b))).finish := rfl

theorem exec_finv_zero {b : FReg} {st : State} (h : st.getF b = Fe.zero) (a : FReg) :
    exec (.finv a b) st = .next (st.takeFault .nonInv) := by
  rw [exec, execFinv, if_pos h, conclude_error]

theorem exec_finv_of_ne_zero {b : FReg} {st : State} (h : st.getF b ≠ Fe.zero) (a : FReg) :
    exec (.finv a b) st = .next (st.setF a (Fe.inv (st.getF b))).finish := by
  rw [exec, execFinv, if_neg h, conclude_ok]

theorem exec_fconst_zero (a : FReg) (st : State) : exec (.fconst a 0#12) st = .next (st.setF a Fe.zero).finish := rfl

theorem exec_padd (a b c : PReg) (st : State) :
    exec (.padd a b c) st = .next (st.setP a (Point.add (st.getP b) (st.getP c))).finish := rfl

theorem exec_pneg (a b : PReg) (st : State) : exec (.pneg a b) st = .next (st.setP a (Point.neg (st.getP b))).finish := rfl

/-- Settles O56: FMOV and PMOV negate twice; the scratch register of PSUB and FDIV is not the first source, so the second command
reads the source as it was; the fault of FDIV's first command leaves ERR = 1, and its second is discarded. -/
theorem pseudoInstructionsDoWhatTheirNamesSay : Obligations.PseudoInstructionsDoWhatTheirNamesSay := by
  intro s
  refine ⟨fun a b => ?fsqr, fun a b => ?fmov, fun a b => ?pmov, fun a b c t htb => ?psub, fun a b c t htb hc => ?fdiv,
    fun a b c t hc => ?fdivByZero, fun a => ?fclr⟩
  case fsqr => exact ⟨_, rfl, exec_fmul a b b s, Fe.mul (s.getF b) (s.getF b), by rw [pow_two]; rfl, rfl⟩
  case fmov => exact ⟨_, _, rfl, exec_fneg a b s, exec_fneg a a _, by simp [neg_neg_eq]⟩
  case pmov => exact ⟨_, _, rfl, exec_pneg a b s, exec_pneg a a _, by simp [Point.neg_neg]⟩
  case psub => exact ⟨_, _, rfl, exec_pneg t c s, exec_padd a b t _, by simp [State.getP_setP_ne s htb.symm]⟩
  case fdiv =>
    have hc0 : s.getF c ≠ Fe.zero := mt (Fe.eq_zero_iff_val _).1 hc
    refine ⟨_, _, rfl, exec_finv_of_ne_zero hc0 t, exec_fmul a b t _, ?_⟩
    simp only [State.getF_finish, State.getF_setF_self, State.getF_setF_ne s htb.symm]
    exact congrArg Fin.val (Fe.mul_inv_mul_cancel hc0 (s.getF b))
  case fdivByZero =>
    have hc0 : s.getF c = Fe.zero := (Fe.eq_zero_iff_val _).2 hc
    exact ⟨_, rfl, exec_finv_zero hc0 t, rfl, (hostWrite_cmd _ _).trans (acceptCommand_faulted rfl _)⟩
  case fclr => exact ⟨_, Fe.zero, rfl, exec_fconst_zero a s, rfl, rfl⟩

end Sys2Proof.Machine
end

section
/-! The field commands (spec/40_field.md): for each its word, the value it writes and its whole next state, and its fault where it
has one; and the round trips of the encodings (R111, R147; 95_test_vectors.md section 1.2). -/

namespace Sys2Proof

/-! ### The values the field commands write, as integers -/

theorem Fe.val_add (a b : Fe) : (Fe.add a b).val = (a.val + b.val) % q := Fe.val_ofNat _

theorem Fe.intCast_val_sub (a b : Fe) : ((Fe.sub a b).val : Int) = (a.val - b.val : Int) % (q : Int) := Fe.val_ofInt _

theorem Fe.val_mul (a b : Fe) : (Fe.mul a b).val = a.val * b.val % q := Fe.val_ofNat _

theorem Fe.neg_zero : Fe.neg Fe.zero = Fe.zero := by
  rw [← Fe.toZ_inj]
  simp

theorem Fe.val_neg_eq_ite (a : Fe) : (Fe.neg a).val = if a.val = 0 then 0 else q - a.val := by
  by_cases ha : a = Fe.zero
  · rw [ha, Fe.neg_zero]; rfl
  · rw [Fe.val_neg ha, if_neg (mt (Fe.eq_zero_iff_val a).2 ha)]

theorem Fe.val_inv (a : Fe) : (Fe.inv a).val = a.val ^ (q - 2) % q := Fe.val_pow a (by decide)

/-- The inverse is the only value whose product with `a` is 1 (R106). -/
theorem Fe.val_mul_mod_eq_one_iff {a : Fe} (ha : a ≠ Fe.zero) (c : Fe) : a.val * c.val % q = 1 ↔ c = Fe.inv a := by
  have := fact_q_prime
  have ha' : a.toZ ≠ 0 := mt Fe.toZ_eq_zero.1 ha
  have hone : Fe.one.val = 1 := by decide
  rw [← hone, Fe.mod_q_eq_val_iff, Nat.cast_mul, Fe.natCast_val, Fe.natCast_val, Fe.toZ_one, ← Fe.toZ_inj, Fe.toZ_inv,
    mul_comm, mul_eq_one_iff_eq_inv₀ ha']

theorem Fe.beq_eq_decide_val (a b : Fe) : (a == b) = decide (a.val = b.val) := by
  rw [Bool.beq_eq_decide_eq]
  exact decide_eq_decide.2 Fin.ext_iff

/-- The decoder rejects FCONST's selectors above 3 (R84, R86). -/
theorem decode_encode_fconst_error {sel : BitVec 12} (h : 3 < sel.toNat) (a : FReg) :
    ∃ e, decode (encode (.fconst a sel)) = .error e := by
  cases hd : decode (encode (.fconst a sel)) with
  | error e => exact ⟨e, rfl⟩
  | ok i =>
    have hsel : sel.toNat ≤ 3 := by
      simp only [encode, decode, opField_commandWord, BitVec.reduceToNat, formatI_eq_ok_iff, immField_commandWord] at hd
      obtain ⟨-, -, -, -, hsel, -⟩ := hd
      exact hsel
    omega

end Sys2Proof

namespace Sys2Proof.Machine

/-! ### Operands through DBUF and constants -/

theorem decodeField_of_ge {v : Wide} (h : q ≤ v.toNat) : decodeField true v = .error .nonCanon := by
  simp [decodeField, h]

theorem decodeField_of_accepted {strict : Bool} {v : Wide} (h : ¬ (q ≤ v.toNat ∧ strict = true)) :
    decodeField strict v = .ok (Fe.ofNat v.toNat) := by
  simpa [decodeField] using h

theorem getLsbD_encodeField_top (v : Fe) : (encodeField v).getLsbD 255 = false := by
  rw [BitVec.getLsbD, toNat_encodeField]
  exact Nat.testBit_lt_two_pow (lt_trans v.isLt (by decide))

/-- Byte i of an encoded value is the value's byte i, the least significant first (R52, R54). -/
theorem toNat_byte_encodeField (v : Fe) (i : Nat) :
    ((encodeField v).extractLsb' (8 * i) 8).toNat = v.val / 256 ^ i % 256 := by
  rw [BitVec.extractLsb'_toNat, toNat_encodeField, Nat.shiftRight_eq_div_pow, pow_mul]
  rfl

/-- FCONST's four constants, by the decimals of R8 (R112). -/
theorem fieldConstant_of_le {sel : BitVec 12} (h : sel.toNat ≤ 3) : ∃ v, fieldConstant sel = some v ∧
    v.val = (if sel.toNat = 0 then 0 else if sel.toNat = 1 then 1 else if sel.toNat = 2 then
      37095705934669439343138083508754565189542113879843219016388785533085940283555 else
      19681161376707505956807079304988542015446066515923890162744021073123829784752) := by
  unfold fieldConstant
  generalize sel.toNat = n at h
  interval_cases n
  · exact ⟨Fe.zero, rfl, rfl⟩
  · exact ⟨Fe.one, rfl, by decide⟩
  · exact ⟨curveD, rfl, by decide⟩
  · exact ⟨sqrtMinusOne, rfl, by decide⟩

theorem fieldConstant_of_gt {sel : BitVec 12} (h : 3 < sel.toNat) : fieldConstant sel = none := by
  have hne : sel.toNat ≠ 0 ∧ sel.toNat ≠ 1 ∧ sel.toNat ≠ 2 ∧ sel.toNat ≠ 3 := by omega
  simp [fieldConstant, hne]

/-! ### The next state of each field command -/

theorem exec_fadd (a b c : FReg) (st : State) :
    exec (.fadd a b c) st = .next (st.setF a (Fe.add (st.getF b) (st.getF c))).finish := rfl

theorem exec_fsub (a b c : FReg) (st : State) :
    exec (.fsub a b c) st = .next (st.setF a (Fe.sub (st.getF b) (st.getF c))).finish := rfl

theorem exec_fpow (a b : FReg) (c : SReg) (st : State) :
    exec (.fpow a b c) st = .next (st.setF a (Fe.pow (st.getF b) (st.getS c).toNat)).finish := rfl

theorem exec_fisneg (b : FReg) (st : State) : exec (.fisneg b) st = .next (st.setFlag (Fe.isNeg (st.getF b))).finish := rfl

theorem exec_feq (b c : FReg) (st : State) : exec (.feq b c) st = .next (st.setFlag (st.getF b == st.getF c)).finish := rfl

theorem exec_fst (b : FReg) (st : State) : exec (.fst b) st = .next (st.setDbuf (encodeField (st.getF b))).finish := rfl

theorem exec_fld_of_ok {st : State} {v : Fe} (h : decodeField st.strict st.dbuf = .ok v) (a : FReg) :
    exec (.fld a) st = .next (st.setF a v).finish := by
  rw [exec, execFld, h]; rfl

theorem exec_fld_of_error {st : State} {c : FaultCode} (h : decodeField st.strict st.dbuf = .error c) (a : FReg) :
    exec (.fld a) st = .next (st.takeFault c) := by
  rw [exec, execFld, h]; rfl

theorem exec_fconst_of_some {sel : BitVec 12} {v : Fe} (h : fieldConstant sel = some v) (a : FReg) (st : State) :
    exec (.fconst a sel) st = .next (st.setF a v).finish := by
  rw [exec, execFconst, h]; rfl

theorem exec_fconst_of_none {sel : BitVec 12} (h : fieldConstant sel = none) (a : FReg) (st : State) :
    exec (.fconst a sel) st = .next (st.takeFault .illegal) := by
  rw [exec, execFconst, h]; rfl

theorem exec_penc (b : PReg) (st : State) : exec (.penc b) st = .next (st.setDbuf (encodePoint (st.getP b))).finish := rfl

theorem exec_pdec_of_ok {st : State} {P : Point} (h : decodePoint st.strict st.dbuf = .ok P) (a : PReg) :
    exec (.pdec a) st = .next (st.setP a P).finish := by
  rw [exec, execPdec, h]; rfl

/-! ### The field commands and the round trips: each command's word, its value and its next state -/

/-- Settles O5: the inverse of R15 is the power, and the field has no second one; F[b] = 0 takes NONINV. -/
theorem finvGivesTheInverseOrFaults : Obligations.FinvGivesTheInverseOrFaults := by
  intro a b s
  refine ⟨by simp [encode, commandWord_eq_ofNat, toNat_regField_F], fun hb => ?_, fun hb => ?_⟩
  · exact exec_finv_zero ((Fe.eq_zero_iff_val _).2 hb) a
  · have hb0 : s.getF b ≠ Fe.zero := mt (Fe.eq_zero_iff_val _).1 hb
    exact ⟨Fe.inv (s.getF b), Fe.val_inv _, (Fe.val_mul_mod_eq_one_iff hb0 _).2 rfl,
      fun c' => (Fe.val_mul_mod_eq_one_iff hb0 c').1, exec_finv_of_ne_zero hb0 a⟩

/-- Settles O6: the exponent is read from S[c] whole, and square and multiply is exact for 256 bits (`Fe.val_pow`). -/
theorem fpowGivesTheExactPower : Obligations.FpowGivesTheExactPower := by
  intro a b c s
  exact ⟨by simp [encode, commandWord_eq_ofNat, toNat_regField_F, toNat_regField_S], Fe.pow (s.getF b) (s.getS c).toNat,
    Fe.val_pow _ (s.getS c).isLt, exec_fpow a b c s⟩

/-- Settles O9: DBUF from q up is rejected in strict mode; what is accepted is reduced. -/
theorem fldRejectsOrReduces : Obligations.FldRejectsOrReduces := by
  intro a s
  refine ⟨by simp [encode, commandWord_eq_ofNat, toNat_regField_F], fun ⟨hge, hstrict⟩ => ?_, fun h => ?_⟩
  · exact exec_fld_of_error (hstrict ▸ decodeField_of_ge hge) a
  · exact ⟨Fe.ofNat s.dbuf.toNat, Fe.val_ofNat _, exec_fld_of_ok (decodeField_of_accepted h) a⟩

/-- Settles O10: the window shows DBUF's bytes in order (`windowByte_dbuf`). -/
theorem fstGivesLittleEndianEncoding : Obligations.FstGivesLittleEndianEncoding := by
  intro b s
  refine ⟨by simp [encode, commandWord_eq_ofNat, toNat_regField_F], encodeField (s.getF b), toNat_encodeField _,
    getLsbD_encodeField_top _, exec_fst b s, fun i hi => ?_⟩
  rw [windowByte_dbuf _ hi]
  exact toNat_byte_encodeField _ i

/-- Settles O60: what a first command leaves in DBUF the second decodes to the same value, whatever STRICT is
(`decodeField_encodeField`, `decodePoint_encodePoint`). -/
theorem encodingsRoundTripInBothModes : Obligations.EncodingsRoundTripInBothModes := by
  refine ⟨fun a b s => ?field, fun a b s hb => ?point⟩
  case field =>
    refine ⟨_, _, exec_fst b s, exec_fld_of_ok (v := s.getF b) ?_ a, by simp⟩
    simpa using decodeField_encodeField s.strict (s.getF b)
  case point =>
    refine ⟨_, _, exec_penc b s, exec_pdec_of_ok (P := s.getP b) ?_ a, by simp⟩
    simpa using decodePoint_encodePoint s.strict hb

/-- Settles O1: one reduction of the exact sum. -/
theorem faddGivesSumModQ : Obligations.FaddGivesSumModQ := by
  intro a b c s
  exact ⟨by simp [encode, commandWord_eq_ofNat, toNat_regField_F], _, Fe.val_add _ _, exec_fadd a b c s⟩

/-- Settles O2: the difference is reduced as an integer, so the remainder is not negative. -/
theorem fsubGivesDifferenceModQ : Obligations.FsubGivesDifferenceModQ := by
  intro a b c s
  exact ⟨by simp [encode, commandWord_eq_ofNat, toNat_regField_F], _, Fe.intCast_val_sub _ _, exec_fsub a b c s⟩

/-- Settles O3: one reduction of the full product. -/
theorem fmulGivesOrdinaryResidue : Obligations.FmulGivesOrdinaryResidue := by
  intro a b c s
  exact ⟨by simp [encode, commandWord_eq_ofNat, toNat_regField_F], _, Fe.val_mul _ _, exec_fmul a b c s⟩

/-- Settles O4: 0 is its own negative, and the negative of another value v is q - v (`Fe.val_neg_eq_ite`). -/
theorem fnegGivesCanonicalNegative : Obligations.FnegGivesCanonicalNegative := by
  intro a b s
  exact ⟨by simp [encode, commandWord_eq_ofNat, toNat_regField_F], _, Fe.val_neg_eq_ite _, exec_fneg a b s⟩

/-- Settles O7: bit 0 of the canonical value is its parity. -/
theorem fisnegGivesTheParity : Obligations.FisnegGivesTheParity := by
  intro b s
  refine ⟨by simp [encode, commandWord_eq_ofNat, toNat_regField_F], ?_⟩
  rw [exec_fisneg, Fe.isNeg_eq]; rfl

/-- Settles O8: canonical values are equal exactly as integers. -/
theorem feqComparesCanonicalValues : Obligations.FeqComparesCanonicalValues := by
  intro b c s
  refine ⟨by simp [encode, commandWord_eq_ofNat, toNat_regField_F], ?_⟩
  rw [exec_feq, Fe.beq_eq_decide_val]; rfl

/-- Settles O11: above 3 there is no constant, and the decoder rejects the word too. -/
theorem fconstLoadsTheSelectedConstant : Obligations.FconstLoadsTheSelectedConstant := by
  intro a sel s
  refine ⟨by simp [encode, commandWord_eq_ofNat, toNat_regField_F], fun hle => ?_, fun hgt => ?_⟩
  · obtain ⟨v, hv, hval⟩ := fieldConstant_of_le hle
    exact ⟨v, hval, exec_fconst_of_some hv a s⟩
  · exact ⟨decode_encode_fconst_error hgt a, exec_fconst_of_none (fieldConstant_of_gt hgt) a s⟩

end Sys2Proof.Machine
end

section
/-! The point commands (spec/41_point.md): the sum of R140 by its own formula and as a group law on the curve, the square roots a
decoded point is recovered from (R147), and for each command its word, the value it writes and its whole next state. -/

namespace Sys2Proof

/-! ### The unified sum (R140) -/

/-- A natural number is a multiple of q exactly when it is 0 as a residue. -/
theorem mod_q_eq_zero_iff (n : Nat) : n % q = 0 ↔ (n : ZMod q) = 0 := by
  rw [← Fe.toZ_zero, ← Fe.mod_q_eq_val_iff]
  rfl

/-- The t of R140: d * x1 * x2 * y1 * y2 mod q. -/
def Point.cross (P Q : Point) : Nat := curveD.val * P.x.val * Q.x.val * P.y.val * Q.y.val % q

theorem Point.cross_le (P Q : Point) : Point.cross P Q ≤ q := (Nat.mod_lt _ q_pos).le

theorem Point.natCast_cross (P Q : Point) :
    (Point.cross P Q : ZMod q) = curveD.toZ * P.x.toZ * Q.x.toZ * P.y.toZ * Q.y.toZ := by
  simp [Point.cross, Fe.natCast_val]

/-- 1 - t mod q without a negative number. -/
theorem Fe.ofInt_one_sub {t : Nat} (h : t ≤ q) : Fe.ofInt (1 - (t : Int)) = Fe.ofNat (1 + (q - t)) := by
  rw [← Fe.toZ_inj]
  simp [Nat.cast_sub h, sub_eq_add_neg]

theorem Point.val_add_x (P Q : Point) : (Point.add P Q).x.val =
    (P.x.val * Q.y.val + Q.x.val * P.y.val) * (((1 + Point.cross P Q) % q) ^ (q - 2) % q) % q := by
  rw [Point.add, Fe.val_ofNat, Fe.val_inv, Fe.val_ofNat, Point.cross]

theorem Point.val_add_y (P Q : Point) : (Point.add P Q).y.val =
    (P.y.val * Q.y.val + P.x.val * Q.x.val) * (((1 + (q - Point.cross P Q)) % q) ^ (q - 2) % q) % q := by
  rw [Point.add, ← Point.cross, Fe.ofInt_one_sub (Point.cross_le P Q), Fe.val_ofNat, Fe.val_inv, Fe.val_ofNat]

/-- On the curve neither denominator of the sum is a multiple of q (R140). -/
theorem Point.den_mod_q_ne_zero {P Q : Point} (hP : P.OnCurve) (hQ : Q.OnCurve) :
    (1 + Point.cross P Q) % q ≠ 0 ∧ (1 + (q - Point.cross P Q)) % q ≠ 0 := by
  obtain ⟨hadd, hsub⟩ := Point.den_ne_zero hP hQ
  rw [← Point.natCast_cross] at hadd hsub
  constructor
  · simpa [mod_q_eq_zero_iff] using hadd
  · simpa [mod_q_eq_zero_iff, Nat.cast_sub (Point.cross_le P Q), sub_eq_add_neg] using hsub

/-- Settles O59: the laws are those of the curve's addition over the field Z/q (Laws/PointLaws.lean). -/
theorem pointSumIsAGroupLaw : Obligations.PointSumIsAGroupLaw := fun P Q _ hP hQ hR =>
  ⟨Point.add_onCurve hP hQ, Point.add_assoc hP hQ hR, Point.add_comm P Q, Point.add_neutral P, Point.add_neg hP⟩

/-! ### Parities and roots (R146, R147) -/

theorem Fe.toNat_isNeg (a : Fe) : (Fe.isNeg a).toNat = a.val % 2 := by
  rw [Fe.isNeg, Nat.toNat_testBit, pow_zero, Nat.div_one]

theorem Fe.val_mul_self_mod_eq_iff (x a : Fe) : x.val * x.val % q = a.val ↔ Fe.mul x x = a := by
  rw [Fin.ext_iff, Fe.val_mul]

/-- A square other than 0 has exactly one root of each parity: the roots are r and q - r, one odd, one even (R147). -/
theorem Fe.existsUnique_root_isNeg {a r : Fe} (ha : a ≠ Fe.zero) (hr : Fe.mul r r = a) (sign : Bool) :
    ∃! x, Fe.mul x x = a ∧ Fe.isNeg x = sign := by
  have root_ne_zero : ∀ {x}, Fe.mul x x = a → x ≠ Fe.zero := fun hx h0 =>
    ha (hx ▸ Machine.mul_self_eq_zero_iff.2 h0)
  refine existsUnique_of_exists_of_unique ?_ fun x x' ⟨hx, hs⟩ ⟨hx', hs'⟩ => ?_
  · by_cases hs : Fe.isNeg r = sign
    · exact ⟨r, hr, hs⟩
    · refine ⟨Fe.neg r, (Machine.mul_neg_self r).trans hr, ?_⟩
      rw [Fe.isNeg_neg (root_ne_zero hr)]
      exact Bool.not_eq.2 hs
  · rcases Machine.eq_or_eq_neg_of_mul_self (hx.trans hx'.symm) with h | h
    · exact h
    · rw [h, Fe.isNeg_neg (root_ne_zero hx'), hs'] at hs
      exact absurd hs (Bool.not_ne_self sign)

/-- A format-I word whose selector is above the most its row allows is no command (R84, R86). -/
theorem formatI_error_of_gt {α : Type} {most : Nat} {w : Word} (h : most < (immField w).toNat)
    (ra : BitVec 4 → Except IllegalWord α) (k : α → BitVec 12 → Instr) : ∃ e, formatI ra most k w = .error e := by
  cases hd : formatI ra most k w with
  | error e => exact ⟨e, rfl⟩
  | ok i =>
    obtain ⟨-, -, -, -, hsel, -⟩ := (formatI_eq_ok_iff _ _ _ _ _).1 hd
    omega

theorem decode_encode_pconst_error {sel : BitVec 12} (h : 1 < sel.toNat) (a : PReg) :
    ∃ e, decode (encode (.pconst a sel)) = .error e := by
  simp only [encode, decode, opField_commandWord, BitVec.reduceToNat]
  exact formatI_error_of_gt (by rwa [immField_commandWord]) _ _

/-- The curve test accepts exactly the solutions of R15's equation over the integers mod q. -/
theorem onCurve_iff_int (x y : Fe) : onCurve x y = true ↔
    (-(x.val : Int) ^ 2 + (y.val : Int) ^ 2 - 1 - (curveD.val : Int) * (x.val : Int) ^ 2 * (y.val : Int) ^ 2) % (q : Int)
      = 0 := by
  rw [onCurve_eq_decide, decide_eq_true_iff]

end Sys2Proof

namespace Sys2Proof.Machine

/-! ### Recovering a point (R147) -/

/-- x2 is the quotient of R147: times the denominator it is the numerator. -/
theorem xSquared_mul_den (y : Fe) :
    (xSquared y).val * (curveD.val * y.val * y.val + 1) % q = (y.val * y.val + (q - 1)) % q := by
  have := fact_q_prime
  rw [← Fe.val_ofNat (y.val * y.val + (q - 1)), Fe.mod_q_eq_val_iff]
  have hmul := (eq_div_iff (d_y_sq_add_one_ne_zero y)).1 (toZ_xSquared y)
  simp only [Fe.toZ_ofNat, Nat.cast_add, Nat.cast_mul, Nat.cast_sub one_lt_q.le, Nat.cast_one, CharP.cast_eq_zero,
    Fe.natCast_val]
  linear_combination hmul

theorem onCurve_iff_of_xSquared_eq_zero {y : Fe} (h : xSquared y = Fe.zero) (x : Fe) : onCurve x y = true ↔ x = Fe.zero := by
  rw [← mul_self_eq_xSquared_iff, h, mul_self_eq_zero_iff]

/-- The recovery fails, with DECODE, where no x on the curve fits the sign. -/
theorem recoverPoint_eq_error {strict : Bool} {y : Fe} {sign : Bool}
    (h : ∀ x, onCurve x y = true → ¬ signFits strict x sign) : recoverPoint strict y sign = .error .decode := by
  cases hr : recoverPoint strict y sign with
  | error c => rw [recoverPoint_error hr]
  | ok P =>
    obtain ⟨rfl, hon, hs⟩ := (recoverPoint_eq_ok_iff _ _ _ _).1 hr
    exact absurd hs (h _ hon)

theorem recoverPoint_of_no_root {y : Fe} (h : ∀ x, Fe.mul x x ≠ xSquared y) (strict sign : Bool) :
    recoverPoint strict y sign = .error .decode :=
  recoverPoint_eq_error fun x hon => absurd ((mul_self_eq_xSquared_iff x y).2 hon) (h x)

theorem recoverPoint_zero_rejected {y : Fe} (h : xSquared y = Fe.zero) : recoverPoint true y true = .error .decode :=
  recoverPoint_eq_error fun x hon => by
    rw [(onCurve_iff_of_xSquared_eq_zero h x).1 hon]
    simp [signFits]

theorem recoverPoint_zero_accepted {y : Fe} (h : xSquared y = Fe.zero) {strict sign : Bool}
    (hs : ¬ (sign = true ∧ strict = true)) : recoverPoint strict y sign = .ok ⟨Fe.zero, y⟩ :=
  (recoverPoint_eq_ok_iff _ _ _ _).2 ⟨rfl, (onCurve_iff_of_xSquared_eq_zero h _).2 rfl, by simpa [signFits] using hs⟩

theorem recoverPoint_root {x y : Fe} (h : xSquared y ≠ Fe.zero) (hx : Fe.mul x x = xSquared y) (strict : Bool) :
    recoverPoint strict y (Fe.isNeg x) = .ok ⟨x, y⟩ := by
  have hx0 : x ≠ Fe.zero := fun h0 => h (hx ▸ mul_self_eq_zero_iff.2 h0)
  exact (recoverPoint_eq_ok_iff _ _ _ _).2 ⟨rfl, (mul_self_eq_xSquared_iff x y).1 hx, by simp [signFits, hx0]⟩

theorem decodePoint_of_ge {v : Wide} (h : q ≤ v.toNat % 2 ^ 255) : decodePoint true v = .error .decode := by
  rw [decodePoint, if_pos (by simpa using h)]

theorem decodePoint_of_accepted {strict : Bool} {v : Wide} (h : ¬ (q ≤ v.toNat % 2 ^ 255 ∧ strict = true)) :
    decodePoint strict v = recoverPoint strict (Fe.ofNat (v.toNat % 2 ^ 255)) (v.getLsbD 255) := by
  rw [decodePoint, if_neg (by simpa using h)]

/-! ### PENC's value and PCONST's -/

theorem toNat_encodePoint_eq_parity (P : Point) : (encodePoint P).toNat = P.y.val + P.x.val % 2 * 2 ^ 255 := by
  rw [toNat_encodePoint, Fe.toNat_isNeg]

/-- PCONST's two points, by the decimals of R8 (R153). -/
theorem pointConstant_of_le {sel : BitVec 12} (h : sel.toNat ≤ 1) : ∃ R, pointConstant sel = some R ∧
    R.x.val = (if sel.toNat = 0 then 0 else
      15112221349535400772501151409588531511454012693041857206046113283949847762202) ∧
    R.y.val = (if sel.toNat = 0 then 1 else
      46316835694926478169428394003475163141307993866256225615783033603165251855960) := by
  unfold pointConstant
  generalize sel.toNat = n at h
  interval_cases n
  · exact ⟨neutral, rfl, by decide, by decide⟩
  · exact ⟨basePoint, rfl, by decide, by decide⟩

theorem pointConstant_of_gt {sel : BitVec 12} (h : 1 < sel.toNat) : pointConstant sel = none := by
  have hne : sel.toNat ≠ 0 ∧ sel.toNat ≠ 1 := by omega
  simp [pointConstant, hne]

/-! ### The next state of each point command -/

@[simp] theorem State.getS_setP (st : State) (r : PReg) (P : Point) (r' : SReg) : (st.setP r P).getS r' = st.getS r' := rfl

theorem State.finish_setDbuf (st : State) (d : Wide) :
    (st.setDbuf d).finish = { st with dbuf := d, busy := false, done := true, latch := none } := rfl

theorem exec_pdbl (a b : PReg) (st : State) :
    exec (.pdbl a b) st = .next (st.setP a (Point.add (st.getP b) (st.getP b))).finish := rfl

/-- PSMUL on a point of the curve: double and add is the k-fold sum, as k = S[c] has 256 bits (R144). -/
theorem exec_psmul_of_onCurve {b : PReg} {st : State} (hb : (st.getP b).OnCurve) (a : PReg) (c : SReg) :
    exec (.psmul a b c) st = .next (st.setP a (Point.kFold (st.getP b) (st.getS c).toNat)).finish := by
  rw [← Point.smul_eq_kFold hb (st.getS c).isLt]; rfl

theorem exec_psmulb (a : PReg) (c : SReg) (st : State) :
    exec (.psmulb a c) st = .next (st.setP a (Point.kFold basePoint (st.getS c).toNat)).finish := by
  rw [← Point.smul_eq_kFold Point.base_onCurve (st.getS c).isLt]; rfl

theorem exec_pdec_of_error {st : State} {c : FaultCode} (h : decodePoint st.strict st.dbuf = .error c) (a : PReg) :
    exec (.pdec a) st = .next (st.takeFault c) := by
  rw [exec, execPdec, h]; rfl

theorem exec_pchk (b c : FReg) (st : State) :
    exec (.pchk b c) st = .next (st.setFlag (onCurve (st.getF b) (st.getF c))).finish := rfl

theorem exec_pset_of_onCurve {b c : FReg} {st : State} (h : onCurve (st.getF b) (st.getF c) = true) (a : PReg) :
    exec (.pset a b c) st = .next (st.setP a ⟨st.getF b, st.getF c⟩).finish := by
  rw [exec, execPset, if_pos h, conclude_ok]

theorem exec_pset_of_not_onCurve {b c : FReg} {st : State} (h : ¬ onCurve (st.getF b) (st.getF c) = true) (a : PReg) :
    exec (.pset a b c) st = .next (st.takeFault .notOnCurve) := by
  rw [exec, execPset, if_neg h, conclude_error]

theorem exec_pgetx (a : FReg) (b : PReg) (st : State) : exec (.pgetx a b) st = .next (st.setF a (st.getP b).x).finish := rfl

theorem exec_pgety (a : FReg) (b : PReg) (st : State) : exec (.pgety a b) st = .next (st.setF a (st.getP b).y).finish := rfl

theorem exec_peq (b c : PReg) (st : State) :
    exec (.peq b c) st = .next (st.setFlag ((st.getP b).x == (st.getP c).x && (st.getP b).y == (st.getP c).y)).finish := rfl

theorem exec_pconst_of_some {sel : BitVec 12} {P : Point} (h : pointConstant sel = some P) (a : PReg) (st : State) :
    exec (.pconst a sel) st = .next (st.setP a P).finish := by
  rw [exec, execPconst, h]; rfl

theorem exec_pconst_of_none {sel : BitVec 12} (h : pointConstant sel = none) (a : PReg) (st : State) :
    exec (.pconst a sel) st = .next (st.takeFault .illegal) := by
  rw [exec, execPconst, h]; rfl

/-! ### The point commands: each command's word, its value and its next state -/

/-- Settles O12: the sum is the formula of R140; its denominators on the curve are those of the curve's addition over Z/q. -/
theorem paddGivesTheUnifiedSum : Obligations.PaddGivesTheUnifiedSum := by
  rintro a b c s _ _ _ _ _ rfl rfl rfl rfl rfl
  exact ⟨by simp [encode, commandWord_eq_ofNat, toNat_regField_P], Point.add (s.getP b) (s.getP c), Point.val_add_x _ _,
    Point.val_add_y _ _, exec_padd a b c s, fun hb hc =>
      ⟨(Point.den_mod_q_ne_zero hb hc).1, (Point.den_mod_q_ne_zero hb hc).2, Point.add_onCurve hb hc⟩⟩

/-- Settles O15: double and add is the k-fold sum on the curve (`Point.smul_eq_kFold`). -/
theorem psmulGivesTheKFoldSum : Obligations.PsmulGivesTheKFoldSum := by
  intro a b c s hb
  exact ⟨by simp [encode, commandWord_eq_ofNat, toNat_regField_P, toNat_regField_S], exec_psmul_of_onCurve hb a c⟩

/-- Settles O16: B is on the curve, and PCONST leaves S[c] as it was. -/
theorem psmulbGivesTheKFoldSumOfB : Obligations.PsmulbGivesTheKFoldSumOfB := by
  intro a t c s
  have hB : ((s.setP t basePoint).finish.getP t).OnCurve := by simpa using Point.base_onCurve
  exact ⟨by simp [encode, commandWord_eq_ofNat, toNat_regField_P, toNat_regField_S], exec_psmulb a c s,
    _, _, exec_pconst_of_some rfl t s, exec_psmul_of_onCurve hB a c, by simp⟩

/-- Settles O17: bit 255 of the encoding is the parity of x, above y < 2^255. -/
theorem pencGivesCompressedEncoding : Obligations.PencGivesCompressedEncoding := by
  intro b s
  refine ⟨by simp [encode, commandWord_eq_ofNat, toNat_regField_P], encodePoint (s.getP b), toNat_encodePoint_eq_parity _, ?_⟩
  rw [exec_penc, State.finish_setDbuf]

/-- Settles O18: what is accepted as y goes to `recoverPoint`, whose answer turns on x2: no root, 0, or a square other than 0. -/
theorem pdecRecoversThePointOrFaults : Obligations.PdecRecoversThePointOrFaults := by
  intro a s y hy
  have hval : y = Fe.ofNat (s.dbuf.toNat % 2 ^ 255) := Fin.ext hy
  refine ⟨by simp [encode, commandWord_eq_ofNat, toNat_regField_P], ?_, fun ⟨hge, hstrict⟩ => ?_, fun hok => ?_⟩
  · rw [mul_assoc]
    exact curveD_mul_sq_add_one_mod_ne_zero y
  · exact exec_pdec_of_error (hstrict ▸ decodePoint_of_ge hge) a
  · have hdec := decodePoint_of_accepted hok
    rw [← hval] at hdec
    simp only [ne_eq, ← Fe.eq_zero_iff_val, Fe.val_mul_self_mod_eq_iff, ← Fe.isNeg_eq]
    refine ⟨xSquared y, xSquared_mul_den y, fun hnone => ?noRoot, fun h0 ⟨hsign, hstrict⟩ => ?zeroRejected,
      fun h0 hs => ?zeroAccepted, fun h0 ⟨r, hr⟩ => ?root⟩
    case noRoot => exact exec_pdec_of_error (hdec.trans (recoverPoint_of_no_root hnone _ _)) a
    case zeroRejected =>
      rw [hsign, hstrict] at hdec
      exact exec_pdec_of_error (hstrict ▸ hdec.trans (recoverPoint_zero_rejected h0)) a
    case zeroAccepted =>
      exact ⟨Fe.zero, rfl, (onCurve_iff_of_xSquared_eq_zero h0 _).2 rfl,
        exec_pdec_of_ok (hdec.trans (recoverPoint_zero_accepted h0 hs)) a⟩
    case root =>
      obtain ⟨x, ⟨hx, hsign⟩, huniq⟩ := Fe.existsUnique_root_isNeg h0 hr (s.dbuf.getLsbD 255)
      rw [← hsign] at hdec
      exact ⟨x, hx, hsign, fun x' hx' hs' => huniq x' ⟨hx', hs'⟩, (mul_self_eq_xSquared_iff x y).1 hx,
        exec_pdec_of_ok (hdec.trans (recoverPoint_root h0 hx _)) a⟩

/-- Settles O20: the curve test decides R15's equation over the integers mod q (`onCurve_iff_int`). -/
theorem psetWritesOnlyCurvePoints : Obligations.PsetWritesOnlyCurvePoints := by
  rintro a b c s _ _ rfl rfl
  exact ⟨by simp [encode, commandWord_eq_ofNat, toNat_regField_F, toNat_regField_P],
    fun h => exec_pset_of_onCurve ((onCurve_iff_int _ _).2 h) a,
    fun h => exec_pset_of_not_onCurve (mt (onCurve_iff_int _ _).1 h) a⟩

/-- Settles O13: PDBL's sum is PADD's with both operands the same. -/
theorem pdblEqualsPaddWithItself : Obligations.PdblEqualsPaddWithItself := by
  intro a b s
  exact ⟨by simp [encode, commandWord_eq_ofNat, toNat_regField_P], exec_pdbl a b s,
    (exec_pdbl a b s).trans (exec_padd a b b s).symm⟩

/-- Settles O14: the negative of x is FNEG's (`Fe.val_neg_eq_ite`). -/
theorem pnegNegatesTheXCoordinate : Obligations.PnegNegatesTheXCoordinate := by
  intro a b s
  exact ⟨by simp [encode, commandWord_eq_ofNat, toNat_regField_P], _, Fe.val_neg_eq_ite _, exec_pneg a b s⟩

/-- Settles O19: the curve test is R15's equation over the integers (`onCurve_eq_decide`). -/
theorem pchkTestsTheCurveEquation : Obligations.PchkTestsTheCurveEquation := by
  rintro b c s _ _ rfl rfl
  refine ⟨by simp [encode, commandWord_eq_ofNat, toNat_regField_F], ?_⟩
  rw [exec_pchk, onCurve_eq_decide]; rfl

/-- Settles O21: the F register gets the coordinate as it stands. -/
theorem pgetxCopiesTheXCoordinate : Obligations.PgetxCopiesTheXCoordinate := by
  intro a b s
  exact ⟨by simp [encode, commandWord_eq_ofNat, toNat_regField_F, toNat_regField_P], exec_pgetx a b s⟩

/-- Settles O22: the F register gets the coordinate as it stands. -/
theorem pgetyCopiesTheYCoordinate : Obligations.PgetyCopiesTheYCoordinate := by
  intro a b s
  exact ⟨by simp [encode, commandWord_eq_ofNat, toNat_regField_F, toNat_regField_P], exec_pgety a b s⟩

/-- Settles O23: coordinates are canonical, so they are equal exactly as integers. -/
theorem peqComparesAffineCoordinates : Obligations.PeqComparesAffineCoordinates := by
  intro b c s
  refine ⟨by simp [encode, commandWord_eq_ofNat, toNat_regField_P], ?_⟩
  rw [exec_peq, Fe.beq_eq_decide_val, Fe.beq_eq_decide_val, ← Bool.decide_and]; rfl

/-- Settles O24: above 1 there is no constant, and the decoder rejects the word too. -/
theorem pconstLoadsTheSelectedPoint : Obligations.PconstLoadsTheSelectedPoint := by
  intro a sel s
  refine ⟨by simp [encode, commandWord_eq_ofNat, toNat_regField_P], fun hle => ?_, fun hgt => ?_⟩
  · obtain ⟨R, hR, hx, hy⟩ := pointConstant_of_le hle
    exact ⟨R, hx, hy, exec_pconst_of_some hR a s⟩
  · exact ⟨decode_encode_pconst_error hgt a, exec_pconst_of_none (pointConstant_of_gt hgt) a s⟩

end Sys2Proof.Machine
end

section
/-! The scalar transfers, NOP and the host's protocol (spec/42_scalar_control.md): for each command its word and its whole next
state (R180 to R182); the transfers of DBUF (R52, R185 steps 1 and 5); and a command issued, polled and completed, up to the end of
the run (R185 steps 2 to 4, R186). -/

namespace Sys2Proof.Machine

/-! ### SLD, SST and NOP -/

theorem exec_sld (a : SReg) (st : State) : exec (.sld a) st = .next (st.setS a st.dbuf).finish := rfl

theorem exec_sst (b : SReg) (st : State) : exec (.sst b) st = .next (st.setDbuf (st.getS b)).finish := rfl

theorem exec_nop (st : State) : exec .nop st = .next st.finish := rfl

/-- Settles O25: the S register gets DBUF as it stands. -/
theorem sldLoadsAllBits : Obligations.SldLoadsAllBits := by
  intro a s
  exact ⟨by simp [encode, commandWord_eq_ofNat, toNat_regField_S], exec_sld a s⟩

/-- Settles O26: DBUF gets the S register as it stands, which SLD filled from DBUF. -/
theorem sstStoresAllBits : Obligations.SstStoresAllBits := by
  intro b s
  exact ⟨by simp [encode, commandWord_eq_ofNat, toNat_regField_S], exec_sst b s, _, _, exec_sld b s, exec_sst b _, by simp⟩

/-- NOP's format has no operand, so the word 0 is the only legal one of its opcode (R182). -/
theorem decode_eq_error_of_nop_opcode {w : Word} (hop : opField w = 0x00#8) (hw : w ≠ 0x00000000#32) :
    ∃ e, decode w = .error e := by
  cases hd : decode w with
  | error e => exact ⟨e, rfl⟩
  | ok i =>
    simp only [decode, hop, BitVec.reduceToNat, formatN_eq_ok_iff] at hd
    obtain ⟨ha, hb, hc, himm, -⟩ := hd
    have hzero : commandWord 0x00#8 0#4 0#4 0#4 0#12 = w := commandWord_eq_iff.2 ⟨congrArg _ hop, ha, hb, hc, himm⟩
    exact absurd hzero.symm hw

/-- Settles O27: only the completion's bookkeeping is written; ERR = 1 discards the word at acceptance. -/
theorem nopOnlyCompletes : Obligations.NopOnlyCompletes := by
  intro s
  exact ⟨rfl, rfl, exec_nop s, fun _ hop hw => decode_eq_error_of_nop_opcode hop hw,
    fun he => (hostWrite_cmd _ s).trans (acceptCommand_faulted he _)⟩

/-! ### The transfers of DBUF (R185 steps 1 and 5) -/

/-- Reads in a row change nothing but what is to come and the record, where each stands with what it returns. -/
theorem run_reads (offs : List (BitVec 8)) : ∀ (st : State) (rest : List Event), st.resetPin = false →
    st.bus = offs.map (Event.read · 4) ++ rest →
    core.run offs.length st = .next { st with
      bus := rest, trace := (offs.map fun off => Access.got off 4 (st.hostRead off 4)).reverse ++ st.trace } := by
  induction offs with
  | nil => rintro st rest - rfl; rfl
  | cons off offs ih =>
    intro st rest hr hbus
    rw [List.length_cons, run_succ (step_read hr hbus), List.map_cons, List.reverse_cons, List.append_assoc]
    exact ih _ rest hr rfl

theorem dbufWord_eq_ofNat (v : Wide) (j : Nat) : dbufWord v j = BitVec.ofNat 32 (v.toNat / 2 ^ (32 * j)) := by
  rw [← Nat.shiftRight_eq_div_pow]
  rfl

/-- DBUF holds `v` in its words below `j`. -/
def State.FilledBelow (v : Wide) (j : Nat) (st : State) : Prop := ∀ k < 32 * j, st.dbuf.getLsbD k = v.getLsbD k

theorem State.FilledBelow.dbuf_eq {v : Wide} {st : State} (h : st.FilledBelow v 8) : st.dbuf = v :=
  BitVec.eq_of_getLsbD_eq h

/-- Writing the next word of `v` fills one word more. -/
theorem State.FilledBelow.setDbufWord {v : Wide} {j : Nat} {st t : State} (h : st.FilledBelow v j) (hj : j < 8)
    (ht : t.dbuf = Machine.setDbufWord st.dbuf j (v.extractLsb' (32 * j) 32)) : t.FilledBelow v (j + 1) := by
  intro k hk
  rw [ht, getLsbD_setDbufWord _ _ _ _ (by omega)]
  split
  · next hword => simp [show k - 32 * j < 32 by omega, show 32 * j + (k - 32 * j) = k by omega, -BitVec.getLsbD_eq_getElem]
  · exact h k (by omega)

/-- The writes of the words from `j` on, to an idle unit whose DBUF is filled below `j`, leave all of `v` in DBUF. -/
theorem run_fill {v : Wide} {rest : List Event} : ∀ (n j : Nat) (st : State), j + n = 8 → st.resetPin = false →
    st.busy = false → st.FilledBelow v j →
    st.bus = (List.range' j n).map (fun j => .write (dbufOffset j) 4 (v.extractLsb' (32 * j) 32)) ++ rest →
    ∃ tr, core.run n st = .next { st with dbuf := v, bus := rest, trace := tr } := by
  intro n
  induction n with
  | zero =>
    rintro j st rfl - - hfill rfl
    rw [← hfill.dbuf_eq]
    exact ⟨st.trace, rfl⟩
  | succ n ih =>
    intro j st hj hr hb hfill hbus
    have hstep := step_write hr hbus
    rw [dbufOffset, hostWrite_dbufWord st (by omega), writeDbuf_idle hb] at hstep
    rw [run_succ hstep]
    exact ih (j + 1) _ (by omega) hr hb (hfill.setDbufWord (by omega) rfl) rfl

/-- Settles O55: word by word, DBUF is filled from the bottom up; reads have no effect. -/
theorem dbufTransfersCarryTheWholeValue : Obligations.DbufTransfersCarryTheWholeValue := by
  intro s v rest hr
  refine ⟨fun hb hbus => ?fill, fun hbus => ?readBack⟩
  case fill =>
    rw [fillTurns, List.range_eq_range'] at hbus
    exact run_fill 8 0 s rfl hr hb (fun k hk => absurd hk k.not_lt_zero) hbus
  case readBack =>
    have hread (j : Nat) (hj : j ∈ List.range 8) : Access.got (dbufOffset j) 4 (s.hostRead (dbufOffset j) 4) =
        .got (BitVec.ofNat 8 (0x40 + 4 * j)) 4 (BitVec.ofNat 32 (s.dbuf.toNat / 2 ^ (32 * j))) := by
      rw [dbufOffset, hostRead_dbufWord s (List.mem_range.1 hj), dbufWord_eq_ofNat]
    rw [← List.map_congr_left hread]
    exact run_reads ((List.range 8).map dbufOffset) s rest hr hbus

/-! ### What no command reads -/

/-- `st` with other values where no command reads: what acceptance writes (LATCH, CMDRB and BUSY), the turns to come and the
record. -/
def State.withUnread (latch : Option Word) (cmdrb : Word) (busy : Bool) (bus : List Event) (tr : List Access) (st : State) :
    State :=
  { st with latch := latch, cmdrb := cmdrb, busy := busy, bus := bus, trace := tr }

theorem conclude_withUnread {out out' : Except FaultCode State} {s t : State} {latch : Option Word} {cmdrb : Word} {busy : Bool}
    {bus : List Event} {tr : List Access} (h : conclude out s = .next t)
    (hout : out' = out.map (State.withUnread latch cmdrb busy bus tr)) :
    conclude out' (s.withUnread latch cmdrb busy bus tr) = .next { t with cmdrb := cmdrb, bus := bus, trace := tr } := by
  subst hout
  cases out <;> cases h <;> rfl

/-- A command does the same whatever these parts hold: the six arms that choose between a write and a fault choose on registers,
DBUF, STRICT or the selector; the rest write. -/
theorem exec_withUnread {i : Instr} {s u : State} (h : exec i s = .next u) (latch : Option Word) (cmdrb : Word) (busy : Bool)
    (bus : List Event) (tr : List Access) :
    exec i (s.withUnread latch cmdrb busy bus tr) = .next { u with cmdrb := cmdrb, bus := bus, trace := tr } := by
  cases i <;> simp only [exec,
    execFadd, execFsub, execFmul, execFneg, execFinv, execFpow, execFisneg, execFeq, execFld, execFst, execFconst, execPadd,
    execPdbl, execPneg, execPsmul, execPsmulb, execPenc, execPdec, execPchk, execPset, execPgetx, execPgety, execPeq, execPconst,
    execSld, execSst, execNop] at h ⊢
  case fld a =>
    exact conclude_withUnread h (comp_map (s.setF a) (State.withUnread latch cmdrb busy bus tr) (decodeField s.strict s.dbuf))
  case pdec a =>
    exact conclude_withUnread h (comp_map (s.setP a) (State.withUnread latch cmdrb busy bus tr) (decodePoint s.strict s.dbuf))
  case finv => exact conclude_withUnread h (by rw [apply_ite (Except.map _)]; rfl)
  case pset => exact conclude_withUnread h (by rw [apply_ite (Except.map _)]; rfl)
  case fconst a sel => exact conclude_withUnread h (by cases fieldConstant sel <;> rfl)
  case pconst a sel => exact conclude_withUnread h (by cases pointConstant sel <;> rfl)
  all_goals exact conclude_withUnread h rfl

/-- No command writes LOST or CTRL. -/
theorem Wrote.host_frame {i : Instr} {st st' : State} (h : Wrote i st st') :
    st'.lost = st.lost ∧ st'.strict = st.strict ∧ st'.irqEn = st.irqEn := by
  rcases h with ⟨r, v, rfl⟩ | ⟨r, v, rfl, -⟩ | ⟨r, v, rfl⟩ | ⟨v, rfl⟩ | ⟨v, rfl, -⟩ | rfl <;> exact ⟨rfl, rfl, rfl⟩

/-- What every completion, with or without a fault, leaves: the bookkeeping of R201, and what no command writes. -/
structure Completes (st t : State) : Prop where
  busy : t.busy = false
  done : t.done = true
  latch : t.latch = none
  lost : t.lost = st.lost
  strict : t.strict = st.strict
  irqEn : t.irqEn = st.irqEn
  resetPin : t.resetPin = st.resetPin

theorem exec_completes {i : Instr} {st t : State} (h : exec i st = .next t) : Completes st t := by
  rcases exec_cases i st with ⟨st', hx, hw⟩ | ⟨c, hx⟩ <;> rw [hx] at h <;> cases h
  · obtain ⟨hlost, hstrict, hirq⟩ := hw.host_frame
    obtain ⟨-, -, -, hpin⟩ := hw.status_frame
    exact ⟨rfl, rfl, rfl, hlost, hstrict, hirq, hpin⟩
  · exact ⟨rfl, rfl, rfl, rfl, rfl, rfl, rfl⟩

theorem unitTurn_legal {st : State} {w : Word} {i : Instr} (hb : st.busy = true) (hl : st.latch = some w)
    (hd : decode w = .ok i) : unitTurn st = exec i st := by
  rw [unitTurn_busy hb, completion, hl]
  simp only [hd]

theorem statusWord_bit0 (st : State) : st.statusWord.getLsbD 0 = st.busy := getLsbD_statusWord st 0

/-! ### The record of a command issued by the protocol -/

/-- The accesses of R185's steps 2 and 3: the command's word written to CMD, then `n` polls of STATUS while it runs. -/
def pollRecord (st : State) (w : Word) (n : Nat) (tr : List Access) : List Access :=
  List.replicate n (.got 0x08#8 4 { st with busy := true }.statusWord) ++ .wrote 0x0C#8 4 w :: tr

/-- No poll of a running command has seen BUSY = 0 (R186). -/
theorem idleSeen_pollRecord (st : State) (w : Word) (n : Nat) (tr : List Access) : idleSeen (pollRecord st w n tr) = false := by
  rw [pollRecord, idleSeen_replicate (statusWord_bit0 _)]
  rfl

/-- A read of STATUS that returns BUSY = 0 after the polls is what R186 waits for. -/
theorem idleSeen_got_pollRecord {v : Word} (hv : v.getLsbD 0 = false) (st : State) (w : Word) (n : Nat) (tr : List Access) :
    idleSeen (.got 0x08#8 4 v :: pollRecord st w n tr) = true := by
  simp [idleSeen, hv, pollRecord, Access.issued, -BitVec.getLsbD_eq_getElem]

theorem issueTurns_resets (w : Word) (polls : Nat) : (issueTurns w polls).any Event.resets = false := by
  simp [issueTurns, Event.resets]

theorem length_issueTurns (w : Word) (polls : Nat) : (issueTurns w polls).length = polls + 3 := by
  simp [issueTurns]

/-! ### A command issued by the protocol (R185 steps 2 to 4) -/

/-- The host's next turns issue the command `i` by the protocol to an idle unit without an error, and `u` is the command's
result. -/
structure Issues (i : Instr) (polls : Nat) (rest : List Event) (s u : State) : Prop where
  wellFormed : wellFormed i = true
  released : s.resetPin = false
  idle : s.busy = false
  noError : s.err = false
  turns : s.bus = issueTurns (encode i) polls ++ rest
  result : exec i s = .next u

/-- The state after the protocol's last read of STATUS: the command's own result, and the record. -/
def issued (i : Instr) (polls : Nat) (rest : List Event) (s u : State) : State :=
  { u with
    cmdrb := encode i
    bus := rest
    trace := .got 0x08#8 4 u.statusWord :: pollRecord s (encode i) polls s.trace }

section
variable {i : Instr} {polls : Nat} {rest : List Event} {s u : State}

/-- Once issued, the command runs while STATUS is polled. -/
theorem Issues.run_polls (h : Issues i polls rest s u) {n : Nat} (hn : n ≤ polls) :
    core.run (n + 1) s = .next (s.withUnread (some (encode i)) (encode i) true
      (List.replicate (polls - n) (.read 0x08#8 4) ++ ([.unitTurn, .read 0x08#8 4] ++ rest))
      (pollRecord s (encode i) n s.trace)) := by
  obtain ⟨m, rfl⟩ := Nat.exists_eq_add_of_le hn
  have hbus := h.turns
  rw [issueTurns, List.cons_append, List.replicate_add, List.append_assoc, List.append_assoc] at hbus
  have hissue := step_write h.released hbus
  rw [hostWrite_cmd, acceptCommand_idle h.idle h.noError] at hissue
  rw [run_succ hissue, Nat.add_sub_cancel_left]
  exact Machine.run_polls n _ _ h.released rfl

/-- After the polls the command completes with its own result. -/
theorem Issues.run_completion (h : Issues i polls rest s u) :
    core.run (polls + 2) s = .next { u with
      cmdrb := encode i, bus := .read 0x08#8 4 :: rest, trace := pollRecord s (encode i) polls s.trace } := by
  have hpolls := h.run_polls (le_refl polls)
  rw [Nat.sub_self] at hpolls
  rw [run_add 1 _ _ _ hpolls]
  refine run_succ ?_ 0
  rw [step_cons rfl]
  exact (unitTurn_legal rfl rfl (decode_encode h.wellFormed)).trans (exec_withUnread h.result _ _ _ _ _)

/-- The last read of STATUS ends the protocol. -/
theorem Issues.run (h : Issues i polls rest s u) : core.run (polls + 3) s = .next (issued i polls rest s u) := by
  rw [run_add 1 _ _ _ h.run_completion]
  have hpin : u.resetPin = false := (exec_completes h.result).resetPin.trans h.released
  refine run_succ ?_ 0
  rw [step_cons rfl]
  exact hostTurn_live hpin _

/-- Before the last read of STATUS the run has not ended: the command is still to be issued, or BUSY = 0 is still to be seen. -/
theorem Issues.not_runEnded (h : Issues i polls rest s u) {j : Nat} (hj : j < polls + 3) {v : State}
    (hv : core.run j s = .next v) : v.runEnded = false := by
  have unseen {t : State} (ht : core.run j s = .next t) (n : Nat) (htr : t.trace = pollRecord s (encode i) n s.trace) :
      v.runEnded = false := by
    cases hv.symm.trans ht
    rw [State.runEnded, htr, idleSeen_pollRecord, Bool.and_false]
  rcases Nat.eq_zero_or_pos j with rfl | hpos
  · cases hv
    simp [State.runEnded, h.turns, issueTurns, Event.issues]
  · obtain ⟨n, rfl⟩ := Nat.exists_eq_add_of_le' hpos
    rcases Nat.lt_or_ge polls n with hlast | hpoll
    · obtain rfl : n = polls + 1 := by omega
      exact unseen h.run_completion polls rfl
    · exact unseen (h.run_polls hpoll) n rfl

theorem issued_runEnded (hbusy : u.busy = false) (hrest : rest.any Event.issues = false) :
    (issued i polls rest s u).runEnded = true := by
  have hseen : idleSeen (issued i polls rest s u).trace = true :=
    idleSeen_got_pollRecord ((statusWord_bit0 u).trans hbusy) s (encode i) polls s.trace
  rw [State.runEnded, hseen, Bool.and_true, Bool.not_eq_true']
  exact hrest

/-- The protocol does not depend on the accesses made before. -/
theorem Issues.withTrace (h : Issues i polls rest s u) (tr : List Access) :
    Issues i polls rest { s with trace := tr } { u with cmdrb := s.cmdrb, bus := s.bus, trace := tr } :=
  ⟨h.wellFormed, h.released, h.idle, h.noError, h.turns, exec_withUnread h.result s.latch s.cmdrb s.busy s.bus tr⟩

theorem Issues.resets_take (h : Issues i polls rest s u) : (s.bus.take (polls + 3)).any Event.resets = false := by
  rw [h.turns, List.take_left' (length_issueTurns _ _), issueTurns_resets]

theorem Issues.le_length_bus (h : Issues i polls rest s u) : polls + 3 ≤ s.bus.length := by
  rw [h.turns, List.length_append, length_issueTurns]
  exact Nat.le_add_right _ _

/-- Where no further command is to be issued, the run ends as the last read of STATUS returns (R186). -/
theorem Issues.runEnd (h : Issues i polls rest s u) (hrest : rest.any Event.issues = false) :
    ∃ tr, s.runEnd = some { issued i polls rest s u with trace := tr } := by
  have hfresh := h.withTrace []
  have hbusy : u.busy = false := (exec_completes h.result).busy
  exact ⟨_, runEndIn_of_run (polls + 3) s.bus.length _ _ hfresh.run (issued_runEnded hbusy hrest)
    (fun _ hj _ hv => hfresh.not_runEnded hj hv) hfresh.resets_take hfresh.le_length_bus⟩

end

/-- Settles O54: the run reaches `issued` after the polls; with nothing more to issue that is the first state of R186's conditions,
and its ERR and LOST are the command's and the earlier ones. -/
theorem issueProtocolRunsTheCommand : Obligations.IssueProtocolRunsTheCommand := by
  intro s u i polls rest hwf hr hb he hbus hex
  have h : Issues i polls rest s u := ⟨hwf, hr, hb, he, hbus, hex⟩
  obtain ⟨hbusy, hdone, hlatch, hlost, hstrict, hirq, -⟩ := exec_completes hex
  refine ⟨issued i polls rest s u, h.run, rfl, hbusy, hdone, hlatch, hlost, rfl, rfl, rfl, rfl, rfl, rfl, rfl, rfl, hstrict, hirq,
    ⟨_, _, rfl, (statusWord_bit0 u).trans hbusy⟩, fun hrest => ?_⟩
  obtain ⟨tr, hend⟩ := h.runEnd hrest
  refine ⟨⟨tr, hend⟩, ?_, ?_⟩
  · rw [State.runFaulted, hend, ← hlost]; rfl
  · rw [State.safeEnd, hend, ← hlost]; rfl

end Sys2Proof.Machine
end

section
/-! Completion, faults and the interrupt output (spec/60_exceptions.md): what every command does at its end (R201, R202), the unit's
turn and the step (R201, R215), acceptance (R203, R208), irq (R207), and how a run ends (R201; 42_scalar_control.md R186). -/

namespace Sys2Proof.Machine

/-! ### The end of a command (R201, R202) -/

theorem exists_exec_eq_next (i : Instr) (st : State) : ∃ t, exec i st = .next t := by
  rcases exec_cases i st with ⟨st', hx, -⟩ | ⟨c, hx⟩
  · exact ⟨_, hx⟩
  · exact ⟨_, hx⟩

/-- No command writes the CMD read-back, the turns to come or the record of accesses. -/
theorem Wrote.outside_frame {i : Instr} {st st' : State} (h : Wrote i st st') :
    st'.cmdrb = st.cmdrb ∧ st'.bus = st.bus ∧ st'.trace = st.trace := by
  rcases h with ⟨r, v, rfl⟩ | ⟨r, v, rfl, -⟩ | ⟨r, v, rfl⟩ | ⟨v, rfl⟩ | ⟨v, rfl, -⟩ | rfl <;> exact ⟨rfl, rfl, rfl⟩

theorem exec_outside_frame {i : Instr} {st t : State} (h : exec i st = .next t) :
    t.cmdrb = st.cmdrb ∧ t.bus = st.bus ∧ t.trace = st.trace := by
  rcases exec_cases i st with ⟨st', hx, hw⟩ | ⟨c, hx⟩ <;> rw [hx] at h <;> cases h
  · exact hw.outside_frame
  · exact ⟨rfl, rfl, rfl⟩

/-- Settles O34: a command answers with its writes or with its fault (`exec_cases`), and either way its end is R201's. -/
theorem everyCommandCompletes : Obligations.EveryCommandCompletes := by
  intro i s
  obtain ⟨t, h⟩ := exists_exec_eq_next i s
  obtain ⟨hbusy, hdone, hlatch, hlost, hstrict, hirq, hpin⟩ := exec_completes h
  obtain ⟨hcmd, hbus, htrace⟩ := exec_outside_frame h
  exact ⟨t, h, hbusy, hdone, hlatch, hstrict, hirq, hlost, hcmd, hpin, hbus, htrace⟩

/-- Settles O35: the pseudocode's writes leave ERR as it was, so a command that raises ERR took its fault. -/
theorem faultingCommandsWriteNothing : Obligations.FaultingCommandsWriteNothing := by
  intro i s t h hok hfault
  rcases exec_cases i s with ⟨st', hx, hw⟩ | ⟨c, hx⟩ <;> rw [hx] at h <;> cases h
  · obtain ⟨-, herr, -, -⟩ := hw.status_frame
    cases hfault.symm.trans (herr.trans hok)
  · obtain ⟨hlo, hhi⟩ := c.code_bounds
    exact ⟨c.code, hlo, hhi, rfl⟩

/-! ### The unit's turn and the step (R201, R215) -/

/-- Settles O32: with no turn left the step is the unit's own turn too. -/
theorem stepRunsTheAcceptedCommand : Obligations.StepRunsTheAcceptedCommand := by
  intro s w i rest
  refine ⟨fun hb hl hd hbus => ?_, fun hb hl hd hbus => ?_, fun hb hbus => ?_, fun hb hbus => ?_⟩
  · rw [step_cons hbus]; exact unitTurn_legal hb hl hd
  · rw [step_nil hbus]; exact unitTurn_legal hb hl hd
  · rw [step_cons hbus]; exact unitTurn_idle hb
  · rw [step_nil hbus]; exact unitTurn_idle hb

/-- The unit's turn has no next state only where BUSY = 1 with an empty LATCH, which R39 excludes. -/
theorem exists_unitTurn_eq_next {st : State} (h : st.LatchConsistent) : ∃ t, unitTurn st = .next t := by
  cases hb : st.busy with
  | false => exact ⟨st, unitTurn_idle hb⟩
  | true =>
    have hl : st.latch = some st.cmdrb := by simpa [State.LatchConsistent, hb] using h
    cases hd : decode st.cmdrb with
    | ok i => rw [unitTurn_legal hb hl hd]; exact exists_exec_eq_next i st
    | error e => exact ⟨_, unitTurn_illegal hb hl hd⟩

/-- A host access has a step exactly while the reset input is released (R240). -/
theorem hostTurn_next_or_refused (st st' : State) :
    (∃ t, hostTurn st st' = .next t) ∨ (st.resetPin = true ∧ hostTurn st st' = .refused .hostAccessInReset) := by
  cases hr : st.resetPin with
  | false => exact .inl ⟨st', hostTurn_live hr st'⟩
  | true => exact .inr ⟨rfl, by rw [hostTurn, if_pos hr]⟩

theorem takeTurn_next_or_refused {st : State} (h : st.LatchConsistent) (e : Event) :
    (∃ t, takeTurn e st = .next t) ∨ (st.resetPin = true ∧ takeTurn e st = .refused .hostAccessInReset) := by
  cases e with
  | write off size v => exact hostTurn_next_or_refused st _
  | read off size => exact hostTurn_next_or_refused st _
  | unitTurn => exact .inl (exists_unitTurn_eq_next h)
  | resetAssert => exact .inl ⟨_, rfl⟩
  | resetRelease => exact .inl ⟨_, rfl⟩

/-- Settles O40: of the invariant only R39 is needed: a running unit has its word in LATCH. -/
theorem invariantStatesAlwaysStep : Obligations.InvariantStatesAlwaysStep := by
  intro s h
  cases hb : s.bus with
  | nil => rw [step_nil hb]; exact .inl (exists_unitTurn_eq_next h.latch)
  | cons e rest => rw [step_cons hb]; exact takeTurn_next_or_refused (h.withBus rest).latch e

/-! ### Acceptance (R203, R208) -/

theorem acceptCommand_discarded {st : State} (h : st.busy = true ∨ st.err = true) (w : Word) :
    st.acceptCommand w = { st with lost := true } := by
  rcases acceptCommand_cases w st with ⟨-, hx⟩ | ⟨hb, he, -⟩
  · exact hx
  · rw [hb, he] at h; simp at h

theorem hostRead_cmd (st : State) : st.hostRead 0x0C#8 4 = st.cmdrb := hostRead_supported rfl st

/-- A clearing write with bit 2 = 1 is the return from a fault (R208). -/
theorem clearStatus_returns {v : Word} (h : v.getLsbD 2 = true) (st : State) :
    st.clearStatus v = { st with
      done := st.done && !v.getLsbD 1, err := false, ecode := 0#4, lost := st.lost && !v.getLsbD 4 } := by
  rw [State.clearStatus, h, Bool.not_true, Bool.and_false, if_pos rfl]

/-- Settles O46: the two cases of acceptance; after the clearing write an idle unit is in the second. -/
theorem cmdWriteIsAcceptedOrDiscarded : Obligations.CmdWriteIsAcceptedOrDiscarded := by
  intro s w
  refine ⟨fun h => ?_, fun ⟨hb, he⟩ => ?_, hostRead_cmd s, fun v hb hv => ?_⟩
  · rw [hostWrite_cmd, acceptCommand_discarded h]
  · rw [hostWrite_cmd, acceptCommand_idle hb he]
  · rw [hostWrite_status, clearStatus_returns hv, hostWrite_cmd]
    exact acceptCommand_idle (by exact hb) rfl w

/-! ### The interrupt output (R207) -/

theorem irq_iff (st : State) : st.irq = true ↔ st.irqEn = true ∧ st.done = true := Bool.and_eq_true_iff

theorem drivesLine_iff (st : State) (n : Nat) : st.drivesLine n = true ↔ n = Config.irqLine ∧ st.irq = true := by
  rw [State.drivesLine, Bool.and_eq_true_iff, decide_eq_true_iff]

theorem irq_eq_false_of_done {st : State} (h : st.done = false) : st.irq = false := by rw [State.irq, h, Bool.and_false]

theorem irq_eq_false_of_irqEn {st : State} (h : st.irqEn = false) : st.irq = false := by rw [State.irq, h, Bool.false_and]

/-- Settles O51: a completion sets DONE and leaves IRQ_EN; a write to STATUS clears the one, a write to CTRL the other. -/
theorem irqFollowsDoneWhenEnabled : Obligations.IrqFollowsDoneWhenEnabled := by
  intro s v n
  refine ⟨irq_iff s, fun i t h => ?completion, fun hv => ?clearDone, fun h31 h1 hb => ?mask, drivesLine_iff s n⟩
  case completion =>
    obtain ⟨-, hdone, -, -, -, hirq, -⟩ := exec_completes h
    rw [State.irq, hdone, hirq, Bool.and_true]
  case clearDone =>
    rw [hostWrite_status]
    exact irq_eq_false_of_done (by rw [State.clearStatus_done, hv, Bool.not_true, Bool.and_false])
  case mask =>
    rw [hostWrite_ctrl, writeCtrl_idle h31 hb]
    exact ⟨irq_eq_false_of_irqEn h1, rfl⟩

/-! ### A run through the turns to come (R201) -/

/-- A step takes one turn off the turns to come; where none is left, none is left after it. -/
theorem step_bus {st t : State} (h : step st = .next t) : t.bus = st.bus.tail := by
  cases hb : st.bus with
  | nil =>
    rw [step_nil hb] at h
    exact (takeTurn_bus (e := .unitTurn) h).trans hb
  | cons e rest => exact takeTurn_bus (step_cons hb ▸ h)

theorem run_bus {k : Nat} : ∀ {st t : State}, core.run k st = .next t → t.bus = st.bus.drop k := by
  induction k with
  | zero => intro st t h; cases h; rfl
  | succ k ih =>
    intro st t h
    obtain ⟨st', hstep, hrun⟩ := run_next h
    rw [ih hrun, step_bus hstep, List.drop_tail]

/-- The unit is idle after its turn: it was idle, or what it ran completed (R201). -/
theorem unitTurn_leaves_idle {st t : State} (h : unitTurn st = .next t) : t.busy = false := by
  cases hb : st.busy with
  | false => rw [unitTurn_idle hb] at h; cases h; exact hb
  | true =>
    rw [unitTurn_busy hb] at h
    rcases completion_cases st with ⟨-, hx⟩ | ⟨w, i, -, -, hx⟩ | ⟨w, e, -, -, hx⟩ <;> rw [hx] at h
    · cases h
    · exact (exec_completes h).busy
    · cases h; rfl

/-- A run of one step more ends with that step. -/
theorem run_last {k : Nat} : ∀ {st t : State}, core.run (k + 1) st = .next t →
    ∃ u, core.run k st = .next u ∧ step u = .next t := by
  induction k with
  | zero =>
    intro st t h
    obtain ⟨st', hstep, hrun⟩ := run_next h
    cases hrun
    exact ⟨st, rfl, hstep⟩
  | succ k ih =>
    intro st t h
    obtain ⟨st', hstep, hrun⟩ := run_next h
    obtain ⟨u, hu, hlast⟩ := ih hrun
    exact ⟨u, (run_succ hstep k).trans hu, hlast⟩

/-- One step more than there are turns: the last step finds none left, so it is the unit's own. -/
theorem run_through_leaves_idle {st t : State} (h : core.run (st.bus.length + 1) st = .next t) :
    t.busy = false ∧ t.bus = [] := by
  obtain ⟨u, hu, hlast⟩ := run_last h
  have hbus : u.bus = [] := (run_bus hu).trans List.drop_length
  exact ⟨unitTurn_leaves_idle (step_nil hbus ▸ hlast), by rw [step_bus hlast, hbus, List.tail_nil]⟩

/-! ### The unit is idle where the host has seen it so (R186) -/

/-- Where the host has read BUSY = 0 since its last write to CMD, the unit is idle. -/
def State.IdleWhereSeen (st : State) : Prop := idleSeen st.trace = true → st.busy = false

/-- Only a supported write to CMD starts an idle unit. -/
theorem hostWrite_leaves_idle {st : State} (hb : st.busy = false) {off : BitVec 8} {size : Nat}
    (h : ¬ (off = 0x0C#8 ∧ size = 4)) (v : Word) : (st.hostWrite off size v).busy = false := by
  rcases hostWrite_cases off size v st with
    hx | ⟨-, -, hx⟩ | ⟨-, hx⟩ | ⟨-, -, hx⟩ | ⟨-, hx⟩ | ⟨hoff, -⟩ | ⟨-, -, -, hx⟩
  · rw [hx]; exact hb
  · rw [hx]; rfl
  · rw [hx]; exact hb
  · rw [hx]; exact hb
  · rw [hx]; exact hb
  · rw [hostWrite_unsupported fun hs => h ⟨hoff, hs.1⟩]; exact hb
  · rw [hx]; exact hb

theorem idleSeen_wrote {off : BitVec 8} {size : Nat} {v : Word} {l : List Access}
    (h : idleSeen (.wrote off size v :: l) = true) : ¬ (off = 0x0C#8 ∧ size = 4) ∧ idleSeen l = true := by
  simpa [idleSeen, imp_iff_not_or] using h

theorem idleSeen_got {off : BitVec 8} {size : Nat} {v : Word} {l : List Access}
    (h : idleSeen (.got off size v :: l) = true) :
    (off = 0x08#8 ∧ size = 4 ∧ v.getLsbD 0 = false) ∨ idleSeen l = true := by
  rw [idleSeen, Bool.or_eq_true] at h
  refine h.imp_left fun hread => ?_
  simp only [Bool.and_eq_true, beq_iff_eq, Bool.not_eq_true'] at hread
  obtain ⟨⟨⟨hoff, hsize⟩, hv⟩, -⟩ := hread
  exact ⟨hoff, hsize, hv⟩

theorem takeTurn_keeps_idleWhereSeen {e : Event} {st t : State} (h : st.IdleWhereSeen) (ht : takeTurn e st = .next t) :
    t.IdleWhereSeen := by
  intro hseen
  cases e with
  | write off size v =>
    obtain ⟨-, rfl⟩ := hostTurn_eq_next_iff.1 ht
    rw [State.record_trace, State.hostWrite_trace] at hseen
    obtain ⟨hnot, hbefore⟩ := idleSeen_wrote hseen
    exact hostWrite_leaves_idle (h hbefore) hnot v
  | read off size =>
    obtain ⟨-, rfl⟩ := hostTurn_eq_next_iff.1 ht
    rcases idleSeen_got hseen with ⟨rfl, rfl, hv⟩ | hbefore
    · rwa [hostRead_status, statusWord_bit0] at hv
    · exact h hbefore
  | unitTurn => exact unitTurn_leaves_idle ht
  | resetAssert => cases ht; rfl
  | resetRelease => cases ht; rfl

theorem step_keeps_idleWhereSeen {st t : State} (h : st.IdleWhereSeen) (ht : step st = .next t) : t.IdleWhereSeen := by
  cases hb : st.bus with
  | nil => exact takeTurn_keeps_idleWhereSeen (e := .unitTurn) h ((step_nil hb).symm.trans ht)
  | cons e rest => exact takeTurn_keeps_idleWhereSeen (st := { st with bus := rest }) h (step_cons hb ▸ ht)

theorem run_keeps_idleWhereSeen {k : Nat} : ∀ {st t : State}, st.IdleWhereSeen → core.run k st = .next t → t.IdleWhereSeen := by
  induction k with
  | zero => intro st t h ht; cases ht; exact h
  | succ k ih =>
    intro st t h ht
    obtain ⟨st', hstep, hrun⟩ := run_next ht
    exact ih (step_keeps_idleWhereSeen h hstep) hrun

/-! ### The end of a run is its first point (R186) -/

/-- After `k` steps from `st`, none of them a reset, the run is at `e`, the first state of R186's conditions. -/
structure RunEndsAt (k : Nat) (st e : State) : Prop where
  run : core.run k st = .next e
  ended : e.runEnded = true
  first : ∀ j < k, ∀ u : State, core.run j st = .next u → u.runEnded = false
  noReset : (st.bus.take k).any Event.resets = false

theorem RunEndsAt.zero {st : State} (h : st.runEnded = true) : RunEndsAt 0 st st :=
  ⟨rfl, h, fun j hj => absurd hj j.not_lt_zero, rfl⟩

theorem RunEndsAt.succ {k : Nat} {st st' e : State} (h : RunEndsAt k st' e) (hstep : step st = .next st')
    (hnot : st.runEnded = false) (hreset : st.bus.head?.any Event.resets = false) : RunEndsAt (k + 1) st e where
  run := (run_succ hstep k).trans h.run
  ended := h.ended
  first := by
    intro j hj u hu
    cases j with
    | zero => cases hu; exact hnot
    | succ j => exact h.first j (Nat.lt_of_succ_lt_succ hj) u ((run_succ hstep j).symm.trans hu)
  noReset := by
    have hrest := h.noReset
    rw [step_bus hstep] at hrest
    cases hb : st.bus with
    | nil => rfl
    | cons e rest =>
      rw [hb] at hreset hrest
      rw [List.take_succ_cons, List.any_cons, Bool.or_eq_false_iff]
      exact ⟨hreset, hrest⟩

/-- How a run comes to have an end: it stands at it, or a step that is no reset leads to a state whose run has it. -/
theorem runEndIn_cases {m : Nat} {st e : State} (h : st.runEndIn m = some e) :
    (st.runEnded = true ∧ st = e) ∨
    ∃ n st', m = n + 1 ∧ st.runEnded = false ∧ st.bus.head?.any Event.resets = false ∧ step st = .next st' ∧
      st'.runEndIn n = some e := by
  unfold State.runEndIn at h
  split at h
  next hended => exact .inl ⟨hended, Option.some.inj h⟩
  next hnot =>
    cases m with
    | zero => cases h
    | succ n =>
      dsimp only at h
      split at h
      next => cases h
      next hreset =>
        cases hs : step st with
        | next st' =>
          rw [hs] at h
          exact .inr ⟨n, st', rfl, by simpa using hnot, by simpa using hreset, rfl, h⟩
        | fault r => rw [hs] at h; cases h
        | refused r => rw [hs] at h; cases h

theorem exists_runEndsAt_of_runEndIn {m : Nat} : ∀ {st e : State}, st.runEndIn m = some e → ∃ k ≤ m, RunEndsAt k st e := by
  induction m with
  | zero =>
    intro st e h
    rcases runEndIn_cases h with ⟨hended, rfl⟩ | ⟨n, st', hm, -⟩
    · exact ⟨0, le_refl 0, .zero hended⟩
    · cases hm
  | succ m ih =>
    intro st e h
    rcases runEndIn_cases h with ⟨hended, rfl⟩ | ⟨n, st', hm, hnot, hreset, hstep, hrest⟩
    · exact ⟨0, Nat.zero_le _, .zero hended⟩
    · cases hm
      obtain ⟨k, hk, hend⟩ := ih hrest
      exact ⟨k + 1, Nat.succ_le_succ hk, hend.succ hstep hnot hreset⟩

/-- Settles O53: the step after the last turn is the unit's own; a run's end is found step by step, and there the host has seen the
unit idle. A run starts with no access made, so nothing is seen at first. -/
theorem everyRunEndsIdle : Obligations.EveryRunEndsIdle := by
  refine ⟨fun s t _ h => run_through_leaves_idle h, fun s e h => ?_⟩
  obtain ⟨k, hk, hend⟩ := exists_runEndsAt_of_runEndIn h
  have hstart : State.IdleWhereSeen { s with trace := [] } := fun hseen => nomatch hseen
  have hseen : idleSeen e.trace = true := (Bool.and_eq_true_iff.1 hend.ended).2
  exact ⟨k, hk, hend.run, hend.ended, run_keeps_idleWhereSeen hstart hend.run hseen, hend.first, hend.noReset,
    by rw [State.runFaulted, h, Option.any_some], by rw [State.safeEnd, h, Option.any_some]⟩

end Sys2Proof.Machine
end

section
/-! Reset and hazards (spec/70_reset_and_hazards.md): what the reset input does and holds (R240), and what a host's write does while
the unit is busy (R250). -/

namespace Sys2Proof.Machine

/-! ### The reset input (R240) -/

/-- What is held in reset runs nothing: the contrapositive of `State.HeldInReset.released_of_busy`. -/
theorem State.HeldInReset.idle_of_asserted {st : State} (h : st.HeldInReset) (hp : st.resetPin = true) : st.busy = false := by
  by_contra hb
  have hreleased : st.resetPin = false := h.released_of_busy (by simpa using hb)
  rw [hreleased] at hp
  cases hp

theorem hostTurn_inReset {st : State} (h : st.resetPin = true) (st' : State) :
    hostTurn st st' = .refused .hostAccessInReset := by
  rw [hostTurn, if_pos h]

/-- Settles O42: either edge is `State.driveReset`; a unit held in reset is idle, so its own turn does nothing, and the host's turns
have no step. -/
theorem hardwareResetHoldsTheUnit : Obligations.HardwareResetHoldsTheUnit := by
  intro s rest
  refine ⟨step_cons, step_cons, fun hinv hp hbus => ?unitTurn, fun off size v hp hbus => ?write, fun off size hp hbus => ?read⟩
  case unitTurn =>
    have hidle : s.busy = false := hinv.reset.idle_of_asserted hp
    exact (step_cons hbus).trans (unitTurn_idle hidle)
  case write => exact (step_cons hbus).trans (hostTurn_inReset hp _)
  case read => exact (step_cons hbus).trans (hostTurn_inReset hp _)

/-! ### Host writes while BUSY (R250) -/

theorem writeDbuf_busy {st : State} (hb : st.busy = true) (j : Nat) (w : Word) : st.writeDbuf j w = { st with lost := true } := by
  rw [State.writeDbuf, if_pos hb]

/-- Settles O47: each register of the window by its own rule for a write while BUSY; the offsets of R250's last clause are ID's and
the reserved ones. -/
theorem writesWhileBusyAreDiscarded : Obligations.WritesWhileBusyAreDiscarded := by
  intro s off v hb halign
  refine ⟨?discarded, ?status, ?ignored⟩
  case discarded =>
    rintro (rfl | ⟨rfl, h31⟩ | ⟨hlo, hhi⟩)
    · rw [hostWrite_cmd, acceptCommand_discarded (.inl hb)]
    · rw [hostWrite_ctrl, writeCtrl_busy h31 hb]
    · rw [hostWrite_supported halign, writeRegister_dbuf hlo (by omega), writeDbuf_busy hb]
  case status =>
    rintro rfl
    exact hostWrite_status v s
  case ignored =>
    rintro (rfl | hreserved)
    · exact (idReadsItsConstant s 4 v).2
    · have hres : ReservedOffset off := by unfold ReservedOffset; omega
      rw [hostWrite_supported halign, writeRegister_reserved hres]

end Sys2Proof.Machine
end
